-- ==== Sys2Proof/Word.lean ====
section
/-! DEFINITION. The word types of the machine: a stack entry or data memory cell (`XLEN` = 32 bits), a byte of
the instruction store, a 40-bit instruction word. Every number in the machine is unsigned (00_scope.md R9). -/

namespace Sys2Proof

/-- A stack entry, a data memory cell, or the decoder's `operand` output: `XLEN` = 32 bits, unsigned
(00_scope.md R6 and R7, 10_state.md R21 and R30). -/
abbrev Word := BitVec 32

/-- A byte of the blob (10_state.md R32). -/
abbrev Byte := BitVec 8

/-- An instruction word, 40 bits; bit 39 is the most significant (30_encoding.md R80 and R81). -/
abbrev InstrWord := BitVec 40

end Sys2Proof
end

