-- ==== Sys2Proof/Config.lean ====
section
/-! DEFINITION. What the spec leaves open: the two parameters `MEM_SIZE` and `STACK_DEPTH` (00_scope.md R6), which stand
in `State` as inputs of a run and whose values in `State.reset` are the body-less constants below, and the one
value the spec does not state (the detail of an error that does not fit its 40-bit register). -/

namespace Sys2Proof

/-- A value of the parameter `STACK_DEPTH`: "natural number >= 1, or unbounded" (00_scope.md R6). The depth 0 cannot be
written. -/
inductive StackDepth where
  | unbounded
  /-- A stack of `lessOne + 1` entries. -/
  | bounded (lessOne : Nat)
deriving DecidableEq, Repr, Inhabited

/-- The number `STACK_DEPTH`, `none` when the stack is unbounded. -/
def StackDepth.entries : StackDepth → Option Nat
  | .unbounded => none
  | .bounded n => some (n + 1)

/-- `MEM_SIZE - 1` of the machine `State.reset` stands for: the implementation's own, never given by the spec
(92_eei_decisions.md D1; notes/assumptions/1.md). No body: no proof can see a value of it. -/
opaque Config.memSizeLessOne : BitVec 32

/-- `MEM_SIZE` of the machine `State.reset` stands for: any number from 1 to 2^32 (00_scope.md R6). -/
def Config.memSize : Nat := Config.memSizeLessOne.toNat + 1

/-- `STACK_DEPTH` of the machine `State.reset` stands for (92_eei_decisions.md D3; notes/assumptions/1.md). No body. -/
opaque Config.stackDepth : StackDepth

/-- FREE VALUE (DESIGN CHOICE, notes/assumptions/6.md): what the 40-bit `TVAL` holds when the number it is to record is
2^40 or more, which only `SP` in a `StackOverflow` on a stack that deep can be. The spec states no value
(10_state.md R35). No body. -/
opaque Config.tvalTooWide : Nat → BitVec 40

end Sys2Proof
end

