-- ==== Sys2Proof/Syntax.lean ====
section
/-! DEFINITION. The instructions: the decoder's output, a kind with its 32-bit `operand` (00_scope.md R7 and R11,
40_codec.md R115 and R116). One constructor per row of spec/opcode_table.json. -/

namespace Sys2Proof

/-- An instruction, "the pair (kind, operand)" (00_scope.md R11). The operand is the zero-extended 32-bit output of the
decoder; WRITE has none, its decoded operand being 0 whatever its field holds (30_encoding.md R86). -/
inductive Instr where
  /-- LOAD, opcode 33: push the operand (42_stack_memory_ops.md R160). -/
  | load (v : Word)
  /-- READ, opcode 24: push the cell at top plus operand (R165). -/
  | read (k : Word)
  /-- WRITE, opcode 13: pop a value and an address and store (R170). -/
  | write
  /-- EQ, opcode 54: pop two entries and store their equality at the operand (R175). -/
  | eq (m : Word)
deriving DecidableEq, Repr

end Sys2Proof
end

