-- ==== Sys2Proof/WellFormed.lean ====
section
/-! DEFINITION. Well-formed instructions: those the spec calls valid, whose operand fits the declared width of its kind
(40_codec.md R127, 00_scope.md R5: LOAD 27 bits, READ 11, EQ 32, WRITE 0). -/

namespace Sys2Proof

/-- "Call an instruction (kind, operand) valid when operand < 2^width(kind)" (40_codec.md R127). EQ's 32-bit operand
always fits; WRITE carries no operand, which is operand 0. -/
abbrev Instr.WellFormed : Instr → Prop
  | .load v => v.toNat < 2 ^ 27
  | .read k => k.toNat < 2 ^ 11
  | .write => True
  | .eq _ => True

end Sys2Proof
end

