-- ==== Sys2Proof/Decode.lean ====
section
/-! DEFINITION. The instruction codec: DEC (field extraction, opcode classification), VAL on the decode side (masking to
the declared width) and on the encode side (the operand range check), and the byte order of a word in the blob.
Follows 40_codec.md R110 to R128, 30_encoding.md R80 to R96 and 20_memory.md R55. -/

namespace Sys2Proof

/-- The four legal values of DEC's `kind` output; ILLEGAL is the absence of one (40_codec.md R112, R113). -/
inductive Kind where
  | load | read | write | eq
deriving DecidableEq, Repr

/-- Why decoding rejects its input. -/
inductive DecodeError where
  /-- `UnknownOpcodeError(word)`: the opcode is none of 33, 24, 13, 54 (40_codec.md R116). -/
  | unknownOpcode (word : InstrWord)
  /-- Fewer than the 5 bytes of one instruction are left; the engine never meets this, since a blob whose length is
  not a multiple of 5 is refused whole (20_memory.md R57). -/
  | truncated
deriving DecidableEq, Repr

/-- Why encoding rejects its input. -/
inductive EncodeError where
  /-- `OperandRangeError(kind, value)` (40_codec.md R122, R124). -/
  | operandRange (kind : Kind) (value : Nat)
deriving DecidableEq, Repr

/-! ## The tables -/

/-- The opcode of each kind (30_encoding.md R91). -/
def Kind.opcode : Kind → BitVec 6
  | .load => 33
  | .read => 24
  | .write => 13
  | .eq => 54

/-- The declared operand width of each kind (40_codec.md R114). -/
def Kind.width : Kind → Nat
  | .load => 27
  | .read => 11
  | .write => 0
  | .eq => 32

/-- The instruction of a kind and its 32-bit operand. -/
def Kind.instr : Kind → Word → Instr
  | .load, v => .load v
  | .read, k => .read k
  | .write, _ => .write
  | .eq, m => .eq m

/-- The kind of an instruction. -/
def Instr.kind : Instr → Kind
  | .load _ => .load
  | .read _ => .read
  | .write => .write
  | .eq _ => .eq

/-- The operand of an instruction, 0 for WRITE (30_encoding.md R86). -/
def Instr.operand : Instr → Word
  | .load v => v
  | .read k => k
  | .write => 0
  | .eq m => m

/-! ## DEC: field extraction and classification -/

/-- `opc = word[5:0]` (40_codec.md R110). -/
def opcOf (w : InstrWord) : BitVec 6 := w.extractLsb' 0 6

/-- `field = word[39:6]`, all 34 bits (40_codec.md R111). -/
def fieldOf (w : InstrWord) : BitVec 34 := w.extractLsb' 6 34

/-- `kind`, `none` for ILLEGAL; it looks at the opcode only (40_codec.md R112). -/
def classify (opc : BitVec 6) : Option Kind :=
  if opc = 33 then some .load
  else if opc = 24 then some .read
  else if opc = 13 then some .write
  else if opc = 54 then some .eq
  else none

/-! ## VAL, decode side -/

/-- `operand = zext_32(field & (2^N - 1))`, `N` the declared width: the ignored bits are dropped without error
(40_codec.md R115, 30_encoding.md R92; notes/assumptions/7.md). -/
def operandOf (k : Kind) (field : BitVec 34) : Word :=
  (field &&& BitVec.ofNat 34 (2 ^ k.width - 1)).setWidth 32

/-- `decode(word)`: the opcode test comes first, and there is no other error (40_codec.md R116). -/
def decodeWord (w : InstrWord) : Except DecodeError Instr :=
  match classify (opcOf w) with
  | none => .error (.unknownOpcode w)
  | some k => .ok (k.instr (operandOf k (fieldOf w)))

/-- `noncanonical(word)` for a word of this kind: some ignored bit is 1 (40_codec.md R118). -/
def noncanonical (k : Kind) (w : InstrWord) : Bool :=
  (fieldOf w >>> k.width) != 0

/-! ## Byte order -/

/-- The 40-bit word of 5 bytes, the first byte lowest (20_memory.md R55). -/
def wordOfBytes (b0 b1 b2 b3 b4 : Byte) : InstrWord :=
  BitVec.ofNat 40 (b0.toNat + b1.toNat * 2 ^ 8 + b2.toNat * 2 ^ 16 + b3.toNat * 2 ^ 24 + b4.toNat * 2 ^ 32)

/-- The 5 bytes of a word in blob order: `[word[7:0], word[15:8], word[23:16], word[31:24], word[39:32]]`
(40_codec.md R124, 30_encoding.md R82). -/
def bytesOfWord (w : InstrWord) : List Byte :=
  [w.extractLsb' 0 8, w.extractLsb' 8 8, w.extractLsb' 16 8, w.extractLsb' 24 8, w.extractLsb' 32 8]

/-- The decoder on bytes: the first instruction and the bytes after it. Every instruction is exactly 5 bytes
(30_encoding.md R80). -/
def decode : List Byte → Except DecodeError (Instr × List Byte)
  | b0 :: b1 :: b2 :: b3 :: b4 :: rest =>
    (decodeWord (wordOfBytes b0 b1 b2 b3 b4)).map fun i => (i, rest)
  | _ => .error .truncated

/-! ## VAL, encode side -/

/-- `(v << 6) | opcode` (40_codec.md R124). -/
def packWord (k : Kind) (v : Nat) : InstrWord :=
  BitVec.ofNat 40 ((v <<< 6) ||| k.opcode.toNat)

/-- `encode(kind, value)`, the word: WRITE discards its operand (40_codec.md R123); the other kinds refuse, before any
shift, a value that does not fit the declared width (R121, R122). -/
def encodeOperand (k : Kind) (value : Nat) : Except EncodeError InstrWord :=
  if k = .write then .ok (packWord .write 0)
  else if value < 2 ^ k.width then .ok (packWord k value)
  else .error (.operandRange k value)

/-- `encode(kind, value)`, the bytes in blob order (40_codec.md R124). -/
def encodeBytes (k : Kind) (value : Nat) : Except EncodeError (List Byte) :=
  (encodeOperand k value).map bytesOfWord

/-- The word of an instruction; an instruction that is not well formed has none. -/
def encodeWord (i : Instr) : Except EncodeError InstrWord :=
  encodeOperand i.kind i.operand.toNat

/-- The bytes of an instruction in blob order; an instruction that is not well formed has none. -/
def encode (i : Instr) : Except EncodeError (List Byte) :=
  encodeBytes i.kind i.operand.toNat

/-- What the decoder reads from a word numbered as spec/opcode_table.json numbers it, every bit from `nbits` up being 0:
the word is laid out in blob order and given to `decode`. -/
def decodeTableWord (nbits w : Nat) : Option Instr :=
  ((decode (bytesOfWord (BitVec.ofNat 40 (w % 2 ^ nbits)))).map Prod.fst).toOption

end Sys2Proof
end

