-- ==== Sys2Proof/Machine/State.lean ====
section
/-! DEFINITION. The state of the machine, the ways a step can stop, and the state after reset. Follows 10_state.md. -/

namespace Sys2Proof.Machine

/-- The data memory `DMEM`: (address, cell) pairs with rising addresses and no cell of 0; an address that is not listed
reads as 0, its reset contents (10_state.md R30 and R39; notes/assumptions/3.md). -/
abbrev Memory := List (Nat × Word)

/-- The whole state: the spec's tuple `PC`, `STK` (with `SP`), `DMEM`, `CAUSE`, `EPC`, `TVAL`, and the inputs of the run,
which no step changes: `IMEM` (with `PROG_BYTES`), `MEM_SIZE`, `STACK_DEPTH` (10_state.md, 00_scope.md R12;
notes/assumptions/1.md). -/
structure State where
  /-- `PC`, the index of the next instruction word, counted in words (10_state.md R24). -/
  pc : Nat
  /-- `STK`, the operand stack, its head the top entry; `SP` is its length (10_state.md R21, R28). -/
  stk : List Word
  /-- `DMEM` (10_state.md R30). -/
  dmem : Memory
  /-- `CAUSE`, 4 bits, 0 for no error (10_state.md R33). -/
  cause : BitVec 4
  /-- `EPC`, the index of the instruction that raised the error (10_state.md R34). -/
  epc : Nat
  /-- `TVAL`, 40 bits, the detail of the error (10_state.md R35). -/
  tval : BitVec 40
  /-- `IMEM`, the blob; `PROG_BYTES` is its length (10_state.md R32, R40). -/
  imem : List Byte
  /-- `MEM_SIZE` (00_scope.md R6). -/
  memSize : Nat
  /-- `STACK_DEPTH` (00_scope.md R6). -/
  stackDepth : StackDepth
deriving DecidableEq, Repr

/-- The errors that `CAUSE` can record, each with the detail `TVAL` records (60_exceptions.md R190). -/
inductive MachineError where
  /-- `StructuralError`, raised by reset only; the detail is `PROG_BYTES mod 5` (R191). -/
  | structural (rest : Nat)
  /-- `UnknownOpcodeError`, raised by the step at decode; the detail is the fetched word (R192). -/
  | unknownOpcode (word : InstrWord)
  /-- `StackUnderflow`, raised by READ, WRITE, EQ; the detail is `SP` (R193). -/
  | stackUnderflow (sp : Nat)
  /-- `OutOfBounds`, raised by READ, WRITE, EQ; the detail is the exact address (R194). -/
  | outOfBounds (addr : Nat)
  /-- `StackOverflow`, raised by LOAD and READ; the detail is `SP` (R196). -/
  | stackOverflow (sp : Nat)
deriving DecidableEq, Repr

/-- What `CAUSE` and `PC` say of the run (10_state.md R36). -/
inductive RunState where
  | running
  | haltedNormally
  | haltedOnError
  /-- None of the three: `CAUSE` = 0 with an ill-formed blob, or with `PC` past `PROG_WORDS`. No run reaches it. -/
  | outsideEveryRun
deriving DecidableEq, Repr

/-- Why a step stops. The machine's own errors are no faults of the model: they are recorded in `CAUSE`, `EPC` and `TVAL`
and give a next state (notes/assumptions/10.md). -/
inductive Fault where
  /-- Raised by `step` on a state that is halted-normally: "It has no step" (41_sequencer.md R142). Safe: the model stops
  where the hardware stays as it is (notes/assumptions/4.md). -/
  | haltedNormally
  /-- Raised by `step` on a state that is halted-on-error: "It has no step" (41_sequencer.md R143). Safe
  (notes/assumptions/4.md). -/
  | haltedOnError
  /-- Raised by `step` on a state that is in none of the three run states of 10_state.md R36, which no run reaches: the
  spec gives it no step. Safe (notes/assumptions/5.md). -/
  | outsideEveryRun
deriving DecidableEq, Repr

/-- Why an instruction is refused. -/
inductive Refusal where
  /-- An instruction of the opcode table that has no meaning yet; raised by `exec`'s arms only. Safe. Every instruction of
  this machine has its meaning, so no arm raises it. -/
  | notModelled (mnemonic : String)
deriving DecidableEq, Repr

/-- Reset, after the host has fixed `MEM_SIZE` and `STACK_DEPTH` and placed a blob (70_reset_and_hazards.md R230, R235): every
value of the table of 10_state.md R39. A blob whose length is not a multiple of 5 is recorded as `StructuralError`
(code 1) here, before any instruction is fetched (60_exceptions.md R191). -/
def State.boot (memSize : Nat) (stackDepth : StackDepth) (blob : List Byte) : State where
  pc := 0
  stk := []
  dmem := []
  cause := if blob.length % 5 = 0 then 0 else 1
  epc := 0
  tval := BitVec.ofNat 40 (blob.length % 5)
  imem := blob
  memSize := memSize
  stackDepth := stackDepth

/-- The machine right after reset with the parameters its implementation fixes and no program placed: the empty blob
(10_state.md R39; notes/assumptions/1.md and 8.md). -/
def State.reset : State := State.boot Config.memSize Config.stackDepth []

end Sys2Proof.Machine
end

