-- ==== Sys2Proof/Machine/Ops.lean ====
section
/-! DEFINITION. The named operations over the stack, the data memory and the status registers: the primitives of
00_scope.md R10, the bounds check, what raising an error does, and what completing an instruction does. -/

namespace Sys2Proof.Machine

/-! ## The data memory -/

/-- The cell at an address; an address that is not listed reads as 0 (10_state.md R39, 20_memory.md R61). -/
def Memory.read : Memory → Nat → Word
  | [], _ => 0
  | (b, w) :: m, a => if a = b then w else Memory.read m a

/-- Store a cell, keeping the canonical form: rising addresses, no cell of 0. -/
def Memory.write : Memory → Nat → Word → Memory
  | [], a, v => if v = 0 then [] else [(a, v)]
  | (b, w) :: m, a, v =>
    if a < b then (if v = 0 then (b, w) :: m else (a, v) :: (b, w) :: m)
    else if a = b then (if v = 0 then m else (a, v) :: m)
    else (b, w) :: Memory.write m a v

/-- Canonical from address `lo` up: addresses at least `lo` and strictly rising, no cell equal to 0. -/
def Memory.wfFrom : Nat → Memory → Bool
  | _, [] => true
  | lo, (a, v) :: m => decide (lo ≤ a) && decide (v ≠ 0) && Memory.wfFrom (a + 1) m

/-- The canonical form: equal memories are equal lists. -/
def Memory.wf (m : Memory) : Bool := Memory.wfFrom 0 m

/-! ## Views of the state -/

/-- `SP`, the number of stack entries (10_state.md R28). -/
def State.sp (s : State) : Nat := s.stk.length

/-- `STK[i]`, entry 0 the bottom; no value at `SP` or above (00_scope.md R10, 10_state.md R23). -/
def State.stkEntry (s : State) (i : Nat) : Option Word := s.stk.reverse[i]?

/-- `PROG_BYTES` (10_state.md R40). -/
def State.progBytes (s : State) : Nat := s.imem.length

/-- `PROG_WORDS`, defined when the blob is well formed (00_scope.md R6, 10_state.md R40). -/
def State.progWords (s : State) : Option Nat :=
  if s.progBytes % 5 = 0 then some (s.progBytes / 5) else none

/-- The run state, read off `CAUSE` and `PC` (10_state.md R36). -/
def State.runState (s : State) : RunState :=
  if s.cause ≠ 0 then .haltedOnError
  else match s.progWords with
    | none => .outsideEveryRun
    | some n =>
      if s.pc < n then .running
      else if s.pc = n then .haltedNormally
      else .outsideEveryRun

/-- `SP = STACK_DEPTH`, for a given number of entries; never when the depth is unbounded (42_stack_memory_ops.md R160). An
empty stack is never full, since `STACK_DEPTH >= 1`. -/
def StackDepth.reached (sp : Nat) (d : StackDepth) : Bool :=
  match sp with
  | 0 => false
  | n + 1 =>
    match d with
    | .unbounded => false
    | .bounded m => decide (n = m)

/-- `SP = STACK_DEPTH`. -/
def State.stackFull (s : State) : Bool := StackDepth.reached s.sp s.stackDepth

/-! ## Errors and completion -/

/-- The code in `CAUSE` (60_exceptions.md R190). -/
def MachineError.code : MachineError → BitVec 4
  | .structural _ => 1
  | .unknownOpcode _ => 2
  | .stackUnderflow _ => 3
  | .outOfBounds _ => 4
  | .stackOverflow _ => 5

/-- A number in the 40-bit `TVAL`; one that does not fit leaves it a free value (10_state.md R35; notes/assumptions/6.md). -/
def tvalOfNat (n : Nat) : BitVec 40 :=
  if n < 2 ^ 40 then BitVec.ofNat 40 n else Config.tvalTooWide n

/-- What `TVAL` records (60_exceptions.md R190, 10_state.md R35). -/
def MachineError.detail : MachineError → BitVec 40
  | .structural rest => tvalOfNat rest
  | .unknownOpcode word => word
  | .stackUnderflow sp => tvalOfNat sp
  | .outOfBounds addr => tvalOfNat addr
  | .stackOverflow sp => tvalOfNat sp

/-- TAKING AN EXCEPTION: `CAUSE <- code`, `EPC <- PC`, `TVAL <- info`, and nothing else changes (60_exceptions.md R205). There
is no handler, no vector and no return (R207): the machine is then halted-on-error. -/
def State.raise (s : State) (e : MachineError) : State :=
  { s with cause := e.code, epc := s.pc, tval := e.detail }

/-- An instruction that completes: `PC <- PC + 1` (10_state.md R25, 41_sequencer.md R141). -/
def State.advance (s : State) : State := { s with pc := s.pc + 1 }

/-- The end of an instruction begun in `s`: its effect and then the next `PC`, or its error recorded on `s` as it was
before the instruction, so that every error is precise (41_sequencer.md R141, 60_exceptions.md R205). -/
def State.finish (s : State) (effect : Except MachineError State) : Host.Outcome State Fault Refusal :=
  match effect with
  | .ok s' => .next s'.advance
  | .error e => .next (s.raise e)

/-! ## The stack -/

/-- `push(v)`; on a full stack `StackOverflow(SP)` (00_scope.md R10, 60_exceptions.md R196). -/
def State.push (s : State) (v : Word) : Except MachineError State :=
  if s.stackFull then .error (.stackOverflow s.sp) else .ok { s with stk := v :: s.stk }

/-- `top()`, which changes nothing; on an empty stack `StackUnderflow(SP)` (00_scope.md R10, 60_exceptions.md R193). -/
def State.top (s : State) : Except MachineError Word :=
  match s.stk with
  | [] => .error (.stackUnderflow s.sp)
  | b :: _ => .ok b

/-- The top entry and the one under it; with fewer than two, `StackUnderflow(SP)` (60_exceptions.md R193). -/
def State.topTwo (s : State) : Except MachineError (Word × Word) :=
  match s.stk with
  | b :: a :: _ => .ok (b, a)
  | _ => .error (.stackUnderflow s.sp)

/-- `pop(); pop()` (42_stack_memory_ops.md R170, R175). -/
def State.dropTwo (s : State) : State := { s with stk := s.stk.drop 2 }

/-! ## Data memory accesses -/

/-- The bounds check, on the exact address: allowed exactly when `addr < MEM_SIZE` (20_memory.md R54). -/
def State.checkBounds (s : State) (addr : Nat) : Except MachineError Nat :=
  if addr < s.memSize then .ok addr else .error (.outOfBounds addr)

/-- `MemRead(addr, 1)`: one whole cell, unchanged, no side effect (00_scope.md R10, 20_memory.md R58). -/
def State.memRead (s : State) (addr : Nat) : Word := s.dmem.read addr

/-- `MemWrite(addr, 1, v)`: one whole cell (00_scope.md R10, 20_memory.md R58). -/
def State.memWrite (s : State) (addr : Nat) (v : Word) : State := { s with dmem := s.dmem.write addr v }

end Sys2Proof.Machine
end

