-- ==== Sys2Proof/Machine/Operands.lean ====
section
/-! DEFINITION. The operand forms: the three addressing modes of 42_stack_memory_ops.md R182, each giving an exact natural
number, never reduced modulo a power of two (R180), and the immediate of LOAD (R160). -/

namespace Sys2Proof.Machine

/-- LOAD's constant: `zext_XLEN(v)`, which at `XLEN` = 32 is the decoded operand itself (42_stack_memory_ops.md R160). -/
def loadValue (v : Word) : Word := v

/-- Mode (a), READ: the top entry, not consumed, plus the unsigned offset; the exact sum (42_stack_memory_ops.md R165). -/
def stackBaseAddress (base k : Word) : Nat := base.toNat + k.toNat

/-- Mode (b), WRITE: the entry under the top, as it stands (42_stack_memory_ops.md R170). -/
def stackAddress (under : Word) : Nat := under.toNat

/-- Mode (c), EQ: the instruction's operand, as it stands (42_stack_memory_ops.md R175). -/
def instructionAddress (m : Word) : Nat := m.toNat

end Sys2Proof.Machine
end

