-- ==== Sys2Proof/Machine/Flags.lean ====
section
/-! DEFINITION. The machine has no flags and no condition codes (10_state.md R29). The one verdict it computes is EQ's, which
goes to a memory cell. -/

namespace Sys2Proof.Machine

/-- EQ's verdict: 1 when the two entries agree in all 32 bits, else 0 (42_stack_memory_ops.md R175, R180). -/
def eqVerdict (a b : Word) : Word := if a = b then 1 else 0

end Sys2Proof.Machine
end

