-- ==== Sys2Proof/Machine/MemoryOps.lean ====
section
/-! DEFINITION. The instructions that access the data memory: READ, WRITE, EQ. In each the tests stand in the order of
60_exceptions.md R200, before any change (70_reset_and_hazards.md R251). -/

namespace Sys2Proof.Machine

/-- READ's effect: the base stays on the stack and the cell is pushed on it (42_stack_memory_ops.md R165). -/
def readEffect (k : Word) (s : State) : Except MachineError State := do
  let base ← s.top
  let addr ← s.checkBounds (stackBaseAddress base k)
  s.push (s.memRead addr)

/-- WRITE's effect: the top is the value, the entry under it the address; both are popped
(42_stack_memory_ops.md R170). -/
def writeEffect (s : State) : Except MachineError State := do
  let (value, under) ← s.topTwo
  let addr ← s.checkBounds (stackAddress under)
  pure (s.dropTwo.memWrite addr value)

/-- EQ's effect: both entries are popped and the verdict is stored at the operand (42_stack_memory_ops.md R175). -/
def eqEffect (m : Word) (s : State) : Except MachineError State := do
  let (b, a) ← s.topTwo
  let addr ← s.checkBounds (instructionAddress m)
  pure (s.dropTwo.memWrite addr (eqVerdict a b))

/-- READ (42_stack_memory_ops.md R165). -/
def execRead (k : Word) (s : State) : Host.Outcome State Fault Refusal :=
  s.finish (readEffect k s)

/-- WRITE (42_stack_memory_ops.md R170). -/
def execWrite (s : State) : Host.Outcome State Fault Refusal :=
  s.finish (writeEffect s)

/-- EQ (42_stack_memory_ops.md R175). -/
def execEq (m : Word) (s : State) : Host.Outcome State Fault Refusal :=
  s.finish (eqEffect m s)

end Sys2Proof.Machine
end

