-- ==== Sys2Proof/Machine/StackOps.lean ====
section
/-! DEFINITION. The instruction that touches the stack only: LOAD. -/

namespace Sys2Proof.Machine

/-- LOAD's effect: push the constant (42_stack_memory_ops.md R160). -/
def loadEffect (v : Word) (s : State) : Except MachineError State :=
  s.push (loadValue v)

/-- LOAD (42_stack_memory_ops.md R160). -/
def execLoad (v : Word) (s : State) : Host.Outcome State Fault Refusal :=
  s.finish (loadEffect v s)

end Sys2Proof.Machine
end

