-- ==== Sys2Proof/Machine/Dispatch.lean ====
section
/-! DEFINITION. One arm per instruction. -/

namespace Sys2Proof.Machine

def exec (i : Instr) (s : State) : Host.Outcome State Fault Refusal :=
  match i with
  | .load v => Sys2Proof.Machine.execLoad v s
  | .read k => Sys2Proof.Machine.execRead k s
  | .write => Sys2Proof.Machine.execWrite s
  | .eq m => Sys2Proof.Machine.execEq m s

end Sys2Proof.Machine
end

