-- ==== Sys2Proof/Machine/Fetch.lean ====
section
/-! DEFINITION. Instruction fetch (20_memory.md R55), what a word that does not decode does, and placing a word where the next
fetch finds it. -/

namespace Sys2Proof.Machine

/-- The blob from byte `5 * PC` on: the word of the next instruction is its first 5 bytes (10_state.md R24). -/
def State.fetchBytes (s : State) : List Byte := s.imem.drop (5 * s.pc)

/-- Fetch and decode: every fetched word goes through `decode` (40_codec.md R130). -/
def State.fetch (s : State) : Except DecodeError Instr :=
  (decode s.fetchBytes).map Prod.fst

/-- A word that does not decode raises `UnknownOpcodeError(word)` (60_exceptions.md R192). A Running state never lacks bytes to
fetch (20_memory.md R57). -/
def State.fetchFailed (s : State) : DecodeError → Host.Outcome State Fault Refusal
  | .unknownOpcode word => s.finish (.error (.unknownOpcode word))
  | .truncated => .fault .outsideEveryRun

/-- The blob with a word placed at index `i`: what stands before and after it stays, zero bytes fill a gap before it, and a
ragged tail after it is cut so that the blob is well formed. -/
def placeWord (blob : List Byte) (i : Nat) (w : InstrWord) : List Byte :=
  let before := blob.take (5 * i)
  let after := blob.drop (5 * i + 5)
  before ++ List.replicate (5 * i - before.length) 0 ++ bytesOfWord w ++ after.take (after.length / 5 * 5)

/-- The state in which the next step fetches `w`: the word stands at `PC` in a well-formed blob and no error is recorded. It
stands for the host's load of a program before reset (70_reset_and_hazards.md R235; notes/assumptions/8.md). -/
def State.placeNext (s : State) (w : InstrWord) : State :=
  { s with imem := placeWord s.imem s.pc w, cause := 0 }

end Sys2Proof.Machine
end

