-- ==== Sys2Proof/Machine/Step.lean ====
section
/-! DEFINITION. The step (41_sequencer.md R141), and where a word is placed so that the next step runs it. -/

namespace Sys2Proof.Machine

/-- One step: on a Running state, fetch, decode and execute; a halted state has no step (41_sequencer.md R141, R142, R143;
notes/assumptions/4.md and 5.md). -/
def step (s : State) : Host.Outcome State Fault Refusal :=
  match s.runState with
  | .haltedOnError => .fault .haltedOnError
  | .haltedNormally => .fault .haltedNormally
  | .outsideEveryRun => .fault .outsideEveryRun
  | .running =>
    match s.fetch with
    | .ok i => exec i s
    | .error e => s.fetchFailed e

/-- `s` with the instruction whose bits are `w` (numbered as spec/opcode_table.json numbers them, every bit from `nbits` up
being 0) where the next step fetches it (notes/assumptions/8.md). -/
def State.withFetchWord (s : State) (nbits w : Nat) : State :=
  s.placeNext (BitVec.ofNat 40 (w % 2 ^ nbits))

end Sys2Proof.Machine
end

