-- ==== Sys2Proof/Machine/Assembler.lean ====
section
/-! DEFINITION. The contract of the assembler, surrounding software that makes blobs: mnemonics, operand defaults and
whole-program assembly (30_encoding.md R100 to R105; notes/assumptions/13.md and 14.md). A mnemonic is a list
of characters. -/

namespace Sys2Proof.Machine

/-- One source entry `(op, arg)`, `arg` an optional natural number (30_encoding.md R101). -/
structure SourceEntry where
  op : List Char
  arg : Option Nat
deriving DecidableEq, Repr

/-- Why assembly is refused, with the attribution the spec asks for. -/
inductive AssemblyError where
  /-- `UnknownMnemonicError`, "naming the offending token" (30_encoding.md R100). -/
  | unknownMnemonic (token : List Char)
  /-- `OperandRangeError`, "reporting which instruction index and field failed" (30_encoding.md R105). -/
  | operandRange (index : Nat) (kind : Kind) (value : Nat)
deriving DecidableEq, Repr

/-- A letter in lower case; that only A to Z change is the model's choice (log 13).
DESIGN CHOICE: R100 gives no character set; safe for the hardware, unsafe for a claim about another notion of case. -/
def lowerLetter (c : Char) : Char :=
  if 65 ≤ c.toNat ∧ c.toNat ≤ 90 then Char.ofNat (c.toNat + 32) else c

/-- The case-insensitive mnemonics (30_encoding.md R100), case being `lowerLetter`'s (log 13). -/
def kindOfMnemonic (token : List Char) : Option Kind :=
  let t := token.map lowerLetter
  if t = ['l', 'o', 'a', 'd'] then some .load
  else if t = ['r', 'e', 'a', 'd'] then some .read
  else if t = ['w', 'r', 'i', 't', 'e'] then some .write
  else if t = ['e', 'q'] then some .eq
  else none

/-- One entry at an index: a missing operand is 0 and any operand of `write` is discarded (30_encoding.md R102). -/
def assembleEntry (index : Nat) (e : SourceEntry) : Except AssemblyError (List Byte) :=
  match kindOfMnemonic e.op with
  | none => .error (.unknownMnemonic e.op)
  | some k =>
    match encodeBytes k (e.arg.getD 0) with
    | .ok bytes => .ok bytes
    | .error (.operandRange kind value) => .error (.operandRange index kind value)

/-- The entries from an index on, in order, stopping at the first that fails. 30_encoding.md R105 gives the order among
`OperandRangeError`s only.
DESIGN CHOICE (log 14): the spec gives no order where an unknown mnemonic is one of several failures; here the first entry
that fails in either way is reported. Safe for the hardware, unsafe for a claim about which error such a program gets. -/
def assembleFrom : Nat → List SourceEntry → Except AssemblyError (List Byte)
  | _, [] => .ok []
  | index, e :: es =>
    match assembleEntry index e with
    | .error err => .error err
    | .ok bytes =>
      match assembleFrom (index + 1) es with
      | .error err => .error err
      | .ok rest => .ok (bytes ++ rest)

/-- `toBinary`: the blob of a program, or no blob at all (30_encoding.md R105). -/
def assemble (program : List SourceEntry) : Except AssemblyError (List Byte) := assembleFrom 0 program

end Sys2Proof.Machine
end

