-- ==== Sys2Proof/Machine/ReadOut.lean ====
section
/-! DEFINITION. What the host may read when a run has ended: the status registers and the memory read-out
(70_reset_and_hazards.md R240, R243, R244; notes/assumptions/12.md). -/

namespace Sys2Proof.Machine

/-- Why the read-out answers nothing. -/
inductive ReadOutError where
  /-- `InvalidRange`: `start > end` or `start < 0` (70_reset_and_hazards.md R243). -/
  | invalidRange
  /-- The run has not ended: the host cannot read `DMEM` during a run (70_reset_and_hazards.md R240). -/
  | runNotEnded
deriving DecidableEq, Repr

/-- A run has ended exactly when the state is halted (70_reset_and_hazards.md R242). -/
def State.ended (s : State) : Bool :=
  match s.runState with
  | .haltedNormally => true
  | .haltedOnError => true
  | .running => false
  | .outsideEveryRun => false

/-- "an ordered mapping from address to value for every address in `[start, min(end, mem_size-1)]`", for a range already
found valid (70_reset_and_hazards.md R243). -/
def State.cells (s : State) (start stop : Nat) : List (Nat × Word) :=
  (List.range' start (min (stop + 1) s.memSize - start)).map fun a => (a, s.memRead a)

/-- The read-out: the range is checked first, "before execution even begins"; an end beyond the memory is clipped
(70_reset_and_hazards.md R243). -/
def State.readOut (s : State) (start stop : Int) : Except ReadOutError (List (Nat × Word)) :=
  if start > stop ∨ start < 0 then .error .invalidRange
  else if s.ended then .ok (s.cells start.toNat stop.toNat)
  else .error .runNotEnded

/-- The error report of a run that has ended: `CAUSE`, `EPC`, `TVAL` (70_reset_and_hazards.md R244). -/
def State.report (s : State) : Option (BitVec 4 × Nat × BitVec 40) :=
  if s.ended then some (s.cause, s.epc, s.tval) else none

end Sys2Proof.Machine
end

