-- ==== Sys2Proof/Safety.lean ====
section
/-! DEFINITION. The terms claims about a run are made in: the three run states, what stays fixed, and the invariant of every
reachable state (10_state.md R41). -/

namespace Sys2Proof.Machine

/-- Running (10_state.md R36). -/
abbrev State.Running (s : State) : Prop := s.runState = .running

/-- The run has ended, normally or on an error (70_reset_and_hazards.md R242). -/
abbrev State.Halted (s : State) : Prop := s.runState = .haltedNormally ∨ s.runState = .haltedOnError

/-- The run ended successfully: the premise of a claim about a run's result (60_exceptions.md R206). -/
abbrev State.Succeeded (s : State) : Prop := s.runState = .haltedNormally

/-- The inputs of the run are the same: `IMEM` with `PROG_BYTES`, `MEM_SIZE`, `STACK_DEPTH` (41_sequencer.md R140). -/
abbrev SameInputs (s t : State) : Prop :=
  t.imem = s.imem ∧ t.memSize = s.memSize ∧ t.stackDepth = s.stackDepth

/-- The three status registers are the same. -/
abbrev SameStatus (s t : State) : Prop :=
  t.cause = s.cause ∧ t.epc = s.epc ∧ t.tval = s.tval

/-- The parameters are in the ranges of 00_scope.md R6 (`STACK_DEPTH >= 1` holds by its type). -/
abbrev State.ParametersOk (s : State) : Prop := 1 ≤ s.memSize ∧ s.memSize ≤ 2 ^ 32

/-- The address an instruction stores to in a state, when it stores: WRITE's from the stack, EQ's from its operand, by the
expressions their meanings use; LOAD and READ store nothing (42_stack_memory_ops.md R182). -/
def storedAddress : Instr → State → Option Nat
  | .load _, _ => none
  | .read _, _ => none
  | .write, s =>
    match s.stk with
    | _ :: under :: _ => some (stackAddress under)
    | _ => none
  | .eq m, _ => some (instructionAddress m)

/-- The data address an instruction accesses in a state, when there are entries to form it from, by the expressions the
meanings use (20_memory.md R51, 42_stack_memory_ops.md R182). -/
def accessedAddress : Instr → State → Option Nat
  | .load _, _ => none
  | .read k, s =>
    match s.stk with
    | base :: _ => some (stackBaseAddress base k)
    | [] => none
  | .write, s => storedAddress .write s
  | .eq m, _ => some (instructionAddress m)

/-- A run of `k` steps, stopping at the first stop (the host's `Core.run`, on this machine's state type). -/
abbrev runFor (k : Nat) (s : State) : Host.Outcome State Fault Refusal := Sys2Proof.core.run k s

/-- The invariant of every reachable state: the clauses (a) to (f) of 10_state.md R41, the register contents of R33 to R35
that go with each cause, the canonical form of the data memory and its bounds. -/
structure RunInvariant (s : State) : Prop where
  parameters : s.ParametersOk
  /-- (a) `SP <= STACK_DEPTH`. -/
  sp_le_depth : ∀ d, s.stackDepth.entries = some d → s.sp ≤ d
  /-- (b) if `CAUSE` is not 1 the blob is well formed and `PC <= PROG_WORDS`. -/
  pc_le : s.cause ≠ 1 → ∃ n, s.progWords = some n ∧ s.pc ≤ n
  /-- (c) if `CAUSE` is 1 nothing ran; R34, R35: `EPC` is 0 and `TVAL` is `PROG_BYTES mod 5`. -/
  structural : s.cause = 1 → s.pc = 0 ∧ s.stk = [] ∧ s.dmem = [] ∧ s.epc = 0 ∧ s.tval.toNat = s.progBytes % 5 ∧
    s.progBytes % 5 ≠ 0
  /-- (d) if `CAUSE` is 2 to 5, `EPC = PC < PROG_WORDS`. -/
  failed : s.cause ≠ 0 → s.cause ≠ 1 → s.epc = s.pc ∧ ∃ n, s.progWords = some n ∧ s.pc < n
  /-- R34, R35: with no error `EPC` and `TVAL` are 0. -/
  no_error : s.cause = 0 → s.epc = 0 ∧ s.tval = 0
  /-- R33: codes 6 to 15 are never produced. -/
  cause_le : s.cause.toNat ≤ 5
  /-- (e) `SP <= PC`. -/
  sp_le_pc : s.sp ≤ s.pc
  /-- (f) every stack entry is below 2^27. -/
  stk_small : ∀ v ∈ s.stk, v.toNat < 2 ^ 27
  /-- (f) every memory cell is below 2^27. -/
  cells_small : ∀ a, (s.memRead a).toNat < 2 ^ 27
  /-- The data memory is in its canonical form. -/
  dmem_wf : s.dmem.wf = true
  /-- No cell at or above `MEM_SIZE` is listed. -/
  dmem_bounds : ∀ p ∈ s.dmem, p.1 < s.memSize

end Sys2Proof.Machine
end

