-- ==== Sys2Proof/Certificates/Slice0/Obligations.lean ====
section
/-! DEFINITION. The statements for the provers, from the numbered rules of spec/. `entries` of a stack depth is the number
`STACK_DEPTH`, `none` for an unbounded stack; `log <n>` is notes/assumptions/<n>.md. -/

open Sys2Proof Sys2Proof.Machine

/-! ## The codec -/

/-- R110, R111: the opcode is the word masked with 0x3F, the field is the word shifted right by 6, all 34 bits, for every
word, with the rules' worked examples. -/
def Obligations.DecoderSplitsWord : Prop :=
  (∀ w : InstrWord, (opcOf w).toNat = w.toNat &&& 0x3F ∧ (fieldOf w).toNat = w.toNat >>> 6) ∧
  opcOf 0x0000000261 = 33 ∧ fieldOf 0x0000000261 = 9 ∧ (fieldOf 0xFFFFFFFFE1).toNat = 2 ^ 34 - 1

/-- R112: the classification, and the number of illegal opcodes. -/
def Obligations.FourOpcodesAreLegal : Prop :=
  classify 33 = some .load ∧ classify 24 = some .read ∧ classify 13 = some .write ∧ classify 54 = some .eq ∧
  (∀ o : BitVec 6, classify o = none ↔ o ≠ 33 ∧ o ≠ 24 ∧ o ≠ 13 ∧ o ≠ 54) ∧
  ((List.range 64).filter fun n => (classify (BitVec.ofNat 6 n)).isNone).length = 60

/-- R114, R115: the declared widths; the operand is the field modulo 2^N; masking changes nothing in a field that fits; the
worked example. -/
def Obligations.OperandIsFieldMaskedToWidth : Prop :=
  Kind.load.width = 27 ∧ Kind.read.width = 11 ∧ Kind.eq.width = 32 ∧ Kind.write.width = 0 ∧
  (∀ (k : Kind) (f : BitVec 34), (operandOf k f).toNat = f.toNat % 2 ^ k.width ∧
    (f.toNat < 2 ^ k.width → (operandOf k f).toNat = f.toNat)) ∧
  operandOf .read 2048 = 0

/-- R116: `decode` fails exactly on the words whose opcode is none of the four, with the word; on every other word it gives
the instruction of the opcode with the field masked to its declared width. -/
def Obligations.DecodeWordIsClassifyThenMask : Prop :=
  (∀ (w : InstrWord) (e : DecodeError), decodeWord w = .error e ↔
    (opcOf w ≠ 33 ∧ opcOf w ≠ 24 ∧ opcOf w ≠ 13 ∧ opcOf w ≠ 54) ∧ e = .unknownOpcode w) ∧
  (∀ (w : InstrWord) (i : Instr), decodeWord w = .ok i ↔
    opcOf w = i.kind.opcode ∧ i.operand.toNat = (fieldOf w).toNat % 2 ^ i.kind.width) ∧
  decode [0x61, 0x02, 0x00, 0x00, 0x00] = .ok (.load 9, [])

/-- R92: two words with one legal opcode whose fields agree below its declared width decode alike. -/
def Obligations.IgnoredBitsAreNotRead : Prop :=
  ∀ (w w' : InstrWord) (k : Kind), opcOf w = k.opcode → opcOf w' = k.opcode →
    (fieldOf w).toNat % 2 ^ k.width = (fieldOf w').toNat % 2 ^ k.width →
    decodeWord w' = decodeWord w ∧ ∃ i, decodeWord w = .ok i ∧ i.kind = k

/-- R90, R114: what the decoder gives is well formed, whatever the ignored bits hold. -/
def Obligations.DecodedInstructionIsWellFormed : Prop :=
  ∀ (bs rest : List Byte) (i : Instr), decode bs = .ok (i, rest) → i.WellFormed ∧ bs.length = rest.length + 5

/-- R121, R122: `encode` fails exactly on a LOAD, READ or EQ operand that does not fit, and never truncates one. -/
def Obligations.EncodeRefusesExactlyTooWide : Prop :=
  (∀ (k : Kind) (v : Nat) (e : EncodeError), encodeOperand k v = .error e ↔
    e = .operandRange k v ∧
      ((k = .load ∧ 134217728 ≤ v) ∨ (k = .read ∧ 2048 ≤ v) ∨ (k = .eq ∧ 4294967296 ≤ v))) ∧
  (∀ (k : Kind) (v : Nat) (w : InstrWord), k ≠ .write → encodeOperand k v = .ok w →
    w.toNat = v * 2 ^ 6 + k.opcode.toNat)

/-- R123: WRITE is exempt from the range check and its operand is discarded. -/
def Obligations.EncodeOfWriteDiscardsOperand : Prop :=
  ∀ v : Nat, encodeOperand .write v = .ok 0x000000000D ∧ encodeBytes .write v = .ok [0x0D, 0x00, 0x00, 0x00, 0x00]

/-- R93, R118, R124: an encoded word has the kind's opcode, every ignored bit 0, and is below 2^38. -/
def Obligations.EncodedWordIsCanonical : Prop :=
  ∀ (k : Kind) (v : Nat) (w : InstrWord), encodeOperand k v = .ok w →
    opcOf w = k.opcode ∧ noncanonical k w = false ∧ w.toNat < 2 ^ 38

/-- R127: every valid instruction encodes, to five bytes, and decodes to itself; WRITE with any operand comes back as
(WRITE, 0). -/
def Obligations.DecodeEncodeRoundTrip : Prop :=
  (∀ (i : Instr) (rest : List Byte), i.WellFormed →
    ∃ (w : InstrWord) (bs : List Byte), encodeWord i = .ok w ∧ decodeWord w = .ok i ∧
      encode i = .ok bs ∧ bs.length = 5 ∧ decode (bs ++ rest) = .ok (i, rest)) ∧
  (∀ v : Nat, ∃ w, encodeOperand .write v = .ok w ∧ decodeWord w = .ok .write)

/-- R128: encoding what a legal word decodes to gives the word with its ignored bits cleared, which is the word itself when it
is canonical. -/
def Obligations.EncodeDecodeClearsIgnoredBits : Prop :=
  ∀ (w : InstrWord) (i : Instr), decodeWord w = .ok i →
    ∃ w', encodeWord i = .ok w' ∧ opcOf w' = opcOf w ∧
      (fieldOf w').toNat = (fieldOf w).toNat % 2 ^ i.kind.width ∧
      (noncanonical i.kind w = false → w' = w) ∧ (noncanonical i.kind w = true → w' ≠ w)

/-- R55, R82: the word of five bytes is their little-endian number, and the bytes of a word give the word back, both ways. -/
def Obligations.WordBytesAreLittleEndian : Prop :=
  (∀ b0 b1 b2 b3 b4 : Byte,
    (wordOfBytes b0 b1 b2 b3 b4).toNat =
      b0.toNat + b1.toNat * 2 ^ 8 + b2.toNat * 2 ^ 16 + b3.toNat * 2 ^ 24 + b4.toNat * 2 ^ 32 ∧
    bytesOfWord (wordOfBytes b0 b1 b2 b3 b4) = [b0, b1, b2, b3, b4]) ∧
  (∀ w : InstrWord, ∃ b0 b1 b2 b3 b4, bytesOfWord w = [b0, b1, b2, b3, b4] ∧ wordOfBytes b0 b1 b2 b3 b4 = w)

/-- Words written out from the encodings of R84 to R87 decode to what they stand for, and R95's all-zero and all-ones words to
nothing. -/
def Obligations.WrittenWordsDecode : Prop :=
  decode [0x61, 0x02, 0x00, 0x00, 0x00] = .ok (.load 9, []) ∧
  decode [0xE1, 0xFF, 0xFF, 0xFF, 0x01] = .ok (.load 134217727, []) ∧
  decode [0x18, 0x01, 0x00, 0x00, 0x00] = .ok (.read 4, []) ∧
  decode [0x0D, 0x00, 0x00, 0x00, 0x00] = .ok (.write, []) ∧
  decode [0xB6, 0x02, 0x00, 0x00, 0x00] = .ok (.eq 10, []) ∧
  decode [0x00, 0x00, 0x00, 0x00, 0x00] = .error (.unknownOpcode 0x0000000000) ∧
  decode [0xFF, 0xFF, 0xFF, 0xFF, 0xFF] = .error (.unknownOpcode 0xFFFFFFFFFF)

/-! ## Reset -/

/-- R39: every reset value, for every choice of the run's inputs. -/
def Obligations.ResetValues : Prop :=
  ∀ (n : Nat) (d : StackDepth) (blob : List Byte),
    let s := State.boot n d blob
    s.pc = 0 ∧ s.sp = 0 ∧ s.stk = [] ∧ (∀ a, s.memRead a = 0) ∧
    s.cause = (if blob.length % 5 = 0 then 0 else 1) ∧ s.epc = 0 ∧
    s.tval.toNat = (if blob.length % 5 = 0 then 0 else blob.length % 5) ∧
    s.imem = blob ∧ s.progBytes = blob.length

/-- R191: a blob whose length is no multiple of 5 is refused at reset: nothing executes, the memory is all 0, the stack empty,
and the error is recorded. -/
def Obligations.IllFormedBlobIsRefusedAtReset : Prop :=
  ∀ (n : Nat) (d : StackDepth) (blob : List Byte), blob.length % 5 ≠ 0 →
    let s := State.boot n d blob
    s.cause = 1 ∧ s.epc = 0 ∧ s.tval.toNat = s.progBytes % 5 ∧ (∀ a, s.memRead a = 0) ∧ s.stk = [] ∧
    s.runState = .haltedOnError ∧ ∀ t, step s ≠ .next t

/-- R145: the empty program is halted-normally at reset. -/
def Obligations.EmptyProgramHaltsNormally : Prop :=
  ∀ (n : Nat) (d : StackDepth),
    let s := State.boot n d []
    s.progWords = some 0 ∧ s.runState = .haltedNormally ∧ (∀ t, step s ≠ .next t) ∧ (∀ a, s.memRead a = 0) ∧
    s.stk = [] ∧ s.cause = 0

/-- The invariant of R41 holds after reset, whatever blob is placed, and in State.reset. That State.reset has an empty blob is
the model's choice (log 8). -/
def Obligations.ResetMeetsRunInvariant : Prop :=
  (∀ (n : Nat) (d : StackDepth) (blob : List Byte), 1 ≤ n → n ≤ 2 ^ 32 → RunInvariant (State.boot n d blob)) ∧
  RunInvariant State.reset

/-! ## The step -/

/-- R141: when the bytes at `PC` of a Running state decode to an instruction, the step is `exec` of it (which itself moves
`PC` on completion), with nothing around it. -/
def Obligations.StepExecutesDecodedInstruction : Prop :=
  ∀ (s : State) (n : Nat) (i : Instr) (rest : List Byte), s.cause = 0 → s.imem.length = 5 * n → s.pc < n →
    decode (s.imem.drop (5 * s.pc)) = .ok (i, rest) → step s = exec i s

/-- R192: a word with an illegal opcode is recorded, whole, at the instruction that has it. -/
def Obligations.UnknownOpcodeIsRecorded : Prop :=
  ∀ (s : State) (n : Nat) (b0 b1 b2 b3 b4 : Byte) (rest : List Byte), s.cause = 0 → s.imem.length = 5 * n → s.pc < n →
    s.imem.drop (5 * s.pc) = b0 :: b1 :: b2 :: b3 :: b4 :: rest →
    (b0.toNat % 64 ≠ 33 ∧ b0.toNat % 64 ≠ 24 ∧ b0.toNat % 64 ≠ 13 ∧ b0.toNat % 64 ≠ 54) →
    step s = .next { s with cause := 2, epc := s.pc, tval := wordOfBytes b0 b1 b2 b3 b4 }

/-- R142, R143: a halted state has no step. That the step then answers a fault, by these names, is the model's choice
(log 4). -/
def Obligations.HaltedStateHasNoStep : Prop :=
  ∀ s : State,
    (s.cause ≠ 0 → step s = .fault .haltedOnError) ∧
    (s.cause = 0 → s.imem.length = 5 * s.pc → step s = .fault .haltedNormally)

/-- R36: what the three run states are, and that exactly one holds wherever the invariant of the reachable states does. -/
def Obligations.RunStateIsReadOffCauseAndPc : Prop :=
  (∀ s : State,
    (s.runState = .running ↔ s.cause = 0 ∧ ∃ n, s.progWords = some n ∧ s.pc < n) ∧
    (s.runState = .haltedNormally ↔ s.cause = 0 ∧ s.progWords = some s.pc) ∧
    (s.runState = .haltedOnError ↔ s.cause ≠ 0) ∧
    (∀ t, step s = .next t → s.Running)) ∧
  (∀ s : State, RunInvariant s → s.runState ≠ .outsideEveryRun)

/-- R25: a step that raises no error adds 1 to `PC`; one that raises an error leaves it at the index of the failing
instruction; and no instruction reads `PC` as data: with another `PC` it has the same effect on stack and memory. -/
def Obligations.PcAdvancesByOneOrStays : Prop :=
  (∀ s t : State, step s = .next t →
    (t.cause = 0 ∧ t.pc = s.pc + 1) ∨ (t.cause ≠ 0 ∧ t.pc = s.pc ∧ t.epc = s.pc)) ∧
  (∀ (i : Instr) (s t : State) (p : Nat), exec i s = .next t →
    ∃ t', exec i { s with pc := p } = .next t' ∧ t'.stk = t.stk ∧ t'.dmem = t.dmem ∧ t'.cause = t.cause ∧ t'.tval = t.tval ∧
      (t.pc = s.pc + 1 → t'.pc = p + 1) ∧ (t.pc = s.pc → t'.pc = p))

/-- R205, with the codes and details of R190 and R35: an error raised by a step changes the three status registers and
nothing else, and says which error, where, and with what detail. A `SP` of 2^40 or more does not fit `TVAL`, which is
then a free value (log 6). -/
def Obligations.ErrorsArePrecise : Prop :=
  ∀ s t : State, step s = .next t → t.cause ≠ 0 →
    t = { s with cause := t.cause, epc := s.pc, tval := t.tval } ∧ t.runState = .haltedOnError ∧
    ((t.cause = 2 ∧ ∃ b0 b1 b2 b3 b4 rest, s.imem.drop (5 * s.pc) = b0 :: b1 :: b2 :: b3 :: b4 :: rest ∧
        t.tval = wordOfBytes b0 b1 b2 b3 b4 ∧ classify (opcOf t.tval) = none) ∨
     (t.cause = 3 ∧ s.sp < 2 ∧ t.tval.toNat = s.sp) ∨
     (t.cause = 4 ∧ ∃ i a, s.fetch = .ok i ∧ accessedAddress i s = some a ∧ s.memSize ≤ a ∧ t.tval.toNat = a) ∨
     (t.cause = 5 ∧ s.stackDepth.entries = some s.sp ∧ (s.sp < 2 ^ 40 → t.tval.toNat = s.sp)))

/-- R140, R32, R64: no step changes the blob, its length, `MEM_SIZE` or `STACK_DEPTH`, so no store is ever fetched. -/
def Obligations.StepKeepsRunInputs : Prop :=
  ∀ s t : State, step s = .next t → SameInputs s t ∧ t.progBytes = s.progBytes ∧ t.progWords = s.progWords

/-- R41: every step keeps the invariant of the reachable states. -/
def Obligations.StepKeepsRunInvariant : Prop :=
  ∀ s t : State, RunInvariant s → step s = .next t → RunInvariant t

/-- R41, R181: the invariant holds in every state a run of any blob reaches, with any parameters. -/
def Obligations.ReachableStatesMeetRunInvariant : Prop :=
  ∀ (n : Nat) (d : StackDepth) (blob : List Byte) (k : Nat) (t : State), 1 ≤ n → n ≤ 2 ^ 32 →
    runFor k (State.boot n d blob) = .next t → RunInvariant t

/-- R147: every step adds 1 to `PC` or halts; every Running state has a step; a run takes at most `PROG_WORDS` steps and, when
it halts normally, exactly that many; the same from any state that is not past the end of its program. -/
def Obligations.RunEndsWithinProgramWords : Prop :=
  (∀ s t : State, step s = .next t → t.pc = s.pc + 1 ∨ t.runState = .haltedOnError) ∧
  (∀ s : State, s.Running → ∃ t, step s = .next t) ∧
  (∀ (s : State) (n : Nat), s.cause = 0 → s.progWords = some n → s.pc ≤ n →
    ∃ k t, k ≤ n - s.pc ∧ runFor k s = .next t ∧ t.Halted ∧ (t.Succeeded → k = n - s.pc)) ∧
  (∀ (m : Nat) (d : StackDepth) (blob : List Byte), ∃ k t, k ≤ blob.length / 5 ∧
    runFor k (State.boot m d blob) = .next t ∧ t.Halted ∧
    (t.Succeeded → 5 * k = blob.length))

/-- R150, R216: instructions execute in index order, each once: after `k` steps without an error `PC` has grown by `k`. -/
def Obligations.PcCountsCompletedInstructions : Prop :=
  ∀ (s t : State) (k : Nat), s.cause = 0 → runFor k s = .next t → t.cause = 0 → t.pc = s.pc + k

/-- R148, R206: an error found in mid-run leaves the stack and the memory as the instructions before it left them: they are
those of the state after `EPC` steps, which had no error. -/
def Obligations.ErrorHaltKeepsEarlierEffects : Prop :=
  ∀ (n : Nat) (d : StackDepth) (blob : List Byte) (k : Nat) (t : State), blob.length % 5 = 0 →
    runFor k (State.boot n d blob) = .next t → t.cause ≠ 0 →
    ∃ u, runFor t.epc (State.boot n d blob) = .next u ∧ u.cause = 0 ∧ u.pc = t.epc ∧ t.pc = t.epc ∧
      t.stk = u.stk ∧ t.dmem = u.dmem

/-! ## The four instructions -/

/-- R160: LOAD on a stack that is not full pushes its operand, whole. -/
def Obligations.LoadPushesConstant : Prop :=
  ∀ (v : Word) (s : State), s.stackDepth.entries ≠ some s.sp →
    exec (.load v) s = .next { s with stk := v :: s.stk, pc := s.pc + 1 }

/-- R160, R196: LOAD on a full stack raises `StackOverflow` and changes nothing else. -/
def Obligations.LoadOnFullStackOverflows : Prop :=
  ∀ (v : Word) (s : State), s.stackDepth.entries = some s.sp →
    ∃ t, exec (.load v) s = .next t ∧ t = { s with cause := 5, epc := s.pc, tval := t.tval } ∧
      (s.sp < 2 ^ 40 → t.tval.toNat = s.sp)

/-- R165: READ keeps the base and pushes the cell at the exact sum of base and offset. -/
def Obligations.ReadPushesCellAndKeepsBase : Prop :=
  ∀ (k base : Word) (rest : List Word) (s : State), s.stk = base :: rest → base.toNat + k.toNat < s.memSize →
    s.stackDepth.entries ≠ some s.sp →
    exec (.read k) s =
      .next { s with stk := s.memRead (base.toNat + k.toNat) :: base :: rest, pc := s.pc + 1 }

/-- R165, R200: READ's errors in their order: an empty stack first, then an exact address out of bounds, then a full stack. -/
def Obligations.ReadErrorsInOrder : Prop :=
  (∀ (k : Word) (s : State), s.sp = 0 → exec (.read k) s = .next { s with cause := 3, epc := s.pc, tval := 0 }) ∧
  (∀ (k base : Word) (rest : List Word) (s : State), s.stk = base :: rest → s.memSize ≤ base.toNat + k.toNat →
    exec (.read k) s =
      .next { s with cause := 4, epc := s.pc, tval := BitVec.ofNat 40 (base.toNat + k.toNat) } ∧
    (BitVec.ofNat 40 (base.toNat + k.toNat)).toNat = base.toNat + k.toNat) ∧
  (∀ (k base : Word) (rest : List Word) (s : State), s.stk = base :: rest → base.toNat + k.toNat < s.memSize →
    s.stackDepth.entries = some s.sp →
    ∃ t, exec (.read k) s = .next t ∧ t = { s with cause := 5, epc := s.pc, tval := t.tval } ∧
      (s.sp < 2 ^ 40 → t.tval.toNat = s.sp))

/-- R170: WRITE pops the value, then the address under it, and stores the value there: one cell, every other cell as before. -/
def Obligations.WriteStoresTopAtAddressBelow : Prop :=
  ∀ (value under : Word) (rest : List Word) (s : State), s.dmem.wf = true → s.stk = value :: under :: rest →
    under.toNat < s.memSize →
    ∃ t, exec .write s = .next t ∧ t.stk = rest ∧ t.pc = s.pc + 1 ∧
      (∀ a, t.memRead a = if a = under.toNat then value else s.memRead a) ∧ SameStatus s t ∧ SameInputs s t

/-- R170, R200: WRITE's errors in their order; neither stack nor memory changes. -/
def Obligations.WriteErrorsInOrder : Prop :=
  (∀ s : State, s.sp < 2 →
    exec .write s = .next { s with cause := 3, epc := s.pc, tval := BitVec.ofNat 40 s.sp }) ∧
  (∀ (value under : Word) (rest : List Word) (s : State), s.stk = value :: under :: rest → s.memSize ≤ under.toNat →
    exec .write s = .next { s with cause := 4, epc := s.pc, tval := BitVec.ofNat 40 under.toNat })

/-- R175: EQ pops two entries and stores 1 or 0 at the address its operand gives; nothing is pushed. -/
def Obligations.EqStoresVerdictAtOperand : Prop :=
  ∀ (m b a : Word) (rest : List Word) (s : State), s.dmem.wf = true → s.stk = b :: a :: rest → m.toNat < s.memSize →
    ∃ t, exec (.eq m) s = .next t ∧ t.stk = rest ∧ t.pc = s.pc + 1 ∧
      (∀ c, t.memRead c = if c = m.toNat then (if a = b then 1 else 0) else s.memRead c) ∧
      SameStatus s t ∧ SameInputs s t

/-- R175, R200: EQ's errors in their order: underflow is reported even when the operand is out of bounds as well. -/
def Obligations.EqErrorsInOrder : Prop :=
  (∀ (m : Word) (s : State), s.sp < 2 →
    exec (.eq m) s = .next { s with cause := 3, epc := s.pc, tval := BitVec.ofNat 40 s.sp }) ∧
  (∀ (m : Word) (s : State), 2 ≤ s.sp → s.memSize ≤ m.toNat →
    exec (.eq m) s = .next { s with cause := 4, epc := s.pc, tval := BitVec.ofNat 40 m.toNat })

/-! ## Frames and rules about all instructions -/

/-- R31, R182: every cell keeps its value except the one at the address the instruction stores to, which is WRITE's stack
address or EQ's operand; LOAD and READ store nothing. -/
def Obligations.OnlyTheStoredCellChanges : Prop :=
  ∀ (i : Instr) (s t : State), exec i s = .next t → ∀ a, storedAddress i s ≠ some a → t.memRead a = s.memRead a

/-- R22: what each completed instruction needs on the stack, pops and pushes, every entry below left alone; an instruction
that raises an error (`PC` stays) leaves the stack as it was. -/
def Obligations.StackEffectOfEachInstruction : Prop :=
  ∀ (i : Instr) (s t : State), exec i s = .next t →
    (t.pc = s.pc → t.stk = s.stk ∧ t.dmem = s.dmem) ∧
    (t.pc = s.pc + 1 →
      (∀ v, i = .load v → s.stackDepth.entries ≠ some s.sp ∧ t.stk = v :: s.stk) ∧
      (∀ k, i = .read k → 1 ≤ s.sp ∧ s.stackDepth.entries ≠ some s.sp ∧ ∃ cell, t.stk = cell :: s.stk) ∧
      (i = .write → 2 ≤ s.sp ∧ t.stk = s.stk.drop 2) ∧
      (∀ m, i = .eq m → 2 ≤ s.sp ∧ t.stk = s.stk.drop 2))

/-- R25, R33 to R35, R140: on every next state an instruction has either completed, with `PC` one more and the status registers
unchanged, or raised an error; the inputs of the run are unchanged either way. -/
def Obligations.StatusChangesOnlyOnError : Prop :=
  ∀ (i : Instr) (s : State), ∃ t, exec i s = .next t ∧ SameInputs s t ∧
    ((t.pc = s.pc + 1 ∧ SameStatus s t) ∨
     (t.pc = s.pc ∧ t.epc = s.pc ∧ (t.cause = 3 ∨ t.cause = 4 ∨ t.cause = 5)))

/-- R151: no instruction reads `CAUSE`, `EPC` or `TVAL`: with other contents there, the same instruction does the same to
`PC`, stack and memory. -/
def Obligations.StatusRegistersAreNotOperands : Prop :=
  ∀ (i : Instr) (s t : State) (c : BitVec 4) (e : Nat) (v : BitVec 40), exec i s = .next t →
    ∃ t', exec i { s with cause := c, epc := e, tval := v } = .next t' ∧
      t'.pc = t.pc ∧ t'.stk = t.stk ∧ t'.dmem = t.dmem

/-- The data memory keeps its canonical form under every instruction (the model's own form, log 3). -/
def Obligations.InstructionsKeepMemoryCanonical : Prop :=
  ∀ (i : Instr) (s t : State), s.dmem.wf = true → exec i s = .next t → t.dmem.wf = true

/-- Canonical memories that read alike everywhere are equal data (the model's own form, log 3). -/
def Obligations.EqualReadsMeanEqualMemories : Prop :=
  ∀ m m' : Memory, m.wf = true → m'.wf = true → (∀ a, m.read a = m'.read a) → m = m'

/-- R61: a READ of the address a WRITE has just stored to gives the stored value, and a READ of any other address what it gave
before; the two instructions need only share the data memory. -/
def Obligations.ReadReturnsLastWrite : Prop :=
  ∀ (s t u : State) (value under base k : Word) (rest below : List Word), s.dmem.wf = true →
    s.stk = value :: under :: rest → under.toNat < s.memSize → exec .write s = .next t →
    u.dmem = t.dmem → u.stk = base :: below → base.toNat + k.toNat < u.memSize → u.stackDepth.entries ≠ some u.sp →
    ∃ u', exec (.read k) u = .next u' ∧
      u'.stk = (if base.toNat + k.toNat = under.toNat then value else s.memRead (base.toNat + k.toNat)) :: base :: below

/-- R184: with `STACK_DEPTH` unbounded or at least `PROG_WORDS`, no step of a reachable state raises `StackOverflow`. -/
def Obligations.DeepStackNeverOverflows : Prop :=
  ∀ (s t : State) (n : Nat), RunInvariant s → s.progWords = some n →
    (∀ d, s.stackDepth.entries = some d → n ≤ d) → step s = .next t → t.cause ≠ 5

/-- R181 (b), (c): in a reachable state READ's address is below 2^27 + 2^11, and with `MEM_SIZE >= 2^27` WRITE never raises
`OutOfBounds`. -/
def Obligations.ReachableAddressesAreSmall : Prop :=
  (∀ (s : State) (base k : Word) (rest : List Word), RunInvariant s → s.stk = base :: rest → k.toNat < 2 ^ 11 →
    stackBaseAddress base k < 2 ^ 27 + 2 ^ 11) ∧
  (∀ s t : State, RunInvariant s → 2 ^ 27 ≤ s.memSize → s.cause = 0 → exec .write s = .next t → t.cause ≠ 4)

/-- R190, R35: the code and the recorded detail of each error, for details that fit 40 bits. -/
def Obligations.ErrorCodesAndDetails : Prop :=
  ∀ n : Nat, n < 2 ^ 40 →
    ((MachineError.structural n).code = 1 ∧ (MachineError.structural n).detail.toNat = n) ∧
    (∀ w : InstrWord, (MachineError.unknownOpcode w).code = 2 ∧ (MachineError.unknownOpcode w).detail = w) ∧
    ((MachineError.stackUnderflow n).code = 3 ∧ (MachineError.stackUnderflow n).detail.toNat = n) ∧
    ((MachineError.outOfBounds n).code = 4 ∧ (MachineError.outOfBounds n).detail.toNat = n) ∧
    ((MachineError.stackOverflow n).code = 5 ∧ (MachineError.stackOverflow n).detail.toNat = n)

/-! ## The host and the assembler -/

/-- R243: the read-out of an ended run: `InvalidRange` exactly when `start > end` or `start < 0`, whatever the state; otherwise
every address from start to the clipped end, once, in increasing order, with its cell; nothing when start is beyond the
memory. -/
def Obligations.ReadOutListsTheClippedRange : Prop :=
  (∀ (s : State) (start stop : Int), s.readOut start stop = .error .invalidRange ↔ (start > stop ∨ start < 0)) ∧
  (∀ (s : State) (start stop : Int), s.ended = true → start ≤ stop → 0 ≤ start →
    ∃ cells, s.readOut start stop = .ok cells ∧
      (∀ (a : Nat) (v : Word), (a, v) ∈ cells ↔
        (start ≤ (a : Int) ∧ (a : Int) ≤ min stop ((s.memSize : Int) - 1) ∧ v = s.memRead a)) ∧
      (cells.Pairwise fun p q => p.1 < q.1) ∧
      ((s.memSize : Int) ≤ start → cells = []))

/-- R240, R242, R244: the host sees the error report exactly when the run has ended, and then it is `CAUSE`, `EPC` and
`TVAL`. That an early read-out answers an error by name is the model's choice (log 12). -/
def Obligations.HostReadsOnlyAfterTheEnd : Prop :=
  ∀ s : State,
    (s.ended = true ↔ s.Halted) ∧
    (s.report = some (s.cause, s.epc, s.tval) ↔ s.Halted) ∧
    (s.report = none ↔ ¬ s.Halted) ∧
    (∀ start stop : Int, ¬ s.Halted → ∀ cells, s.readOut start stop ≠ .ok cells)

/-- After R100: the four mnemonics in any case name their opcodes, and no other token does. What case means, `lowerLetter`'s
fold of A to Z on a list of characters, is the model's choice (DESIGN CHOICE, log 13), not R100's. -/
def Obligations.MnemonicsIgnoreCase : Prop :=
  (Kind.load.opcode = 33 ∧ Kind.read.opcode = 24 ∧ Kind.write.opcode = 13 ∧ Kind.eq.opcode = 54) ∧
  (∀ t : List Char, kindOfMnemonic (t.map lowerLetter) = kindOfMnemonic t) ∧
  (∀ (t : List Char) (k : Kind), kindOfMnemonic t = some k ↔
    (k = .load ∧ t.map lowerLetter = ['l', 'o', 'a', 'd']) ∨ (k = .read ∧ t.map lowerLetter = ['r', 'e', 'a', 'd']) ∨
    (k = .write ∧ t.map lowerLetter = ['w', 'r', 'i', 't', 'e']) ∨ (k = .eq ∧ t.map lowerLetter = ['e', 'q'])) ∧
  (∀ (index : Nat) (e : SourceEntry), kindOfMnemonic e.op = none →
    assembleEntry index e = .error (.unknownMnemonic e.op))

/-- R105, R102: the blob of a program has 5 bytes an entry, and at each entry's place stands the instruction of its mnemonic
with its operand (0 when missing, none for `write`). Mnemonics are read with the model's notion of case (log 13). -/
def Obligations.AssembledBlobDecodesToProgram : Prop :=
  ∀ (es : List SourceEntry) (blob : List Byte), assemble es = .ok blob →
    blob.length = 5 * es.length ∧
    ∀ (j : Nat) (e : SourceEntry), es[j]? = some e →
      ∃ i, decode (blob.drop (5 * j)) = .ok (i, blob.drop (5 * j + 5)) ∧ i.WellFormed ∧
        kindOfMnemonic e.op = some i.kind ∧ (i.kind ≠ .write → i.operand.toNat = e.arg.getD 0)

/-- Assembly fails with the error of the first entry that fails; then there is no blob. R105 says it of `OperandRangeError`s,
with their index; the order where an unknown mnemonic is one of several failures is the model's choice (DESIGN CHOICE, log 14). -/
def Obligations.AssemblyFailsAtTheFirstBadEntry : Prop :=
  ∀ (es : List SourceEntry) (err : AssemblyError), assemble es = .error err ↔
    ∃ (j : Nat) (e : SourceEntry), es[j]? = some e ∧ assembleEntry j e = .error err ∧
      ∀ (j' : Nat) (e' : SourceEntry), j' < j → es[j']? = some e' → ∃ bytes, assembleEntry j' e' = .ok bytes
end

