-- ==== Sys2Proof/Laws/Codec.lean ====
section
/-! SUPPORT. The codec in numbers: opcode and field of a word, of a packed word, of the bytes of a word. -/

namespace Sys2Proof

theorem opcOf_toNat (w : InstrWord) : (opcOf w).toNat = w.toNat % 2 ^ 6 := by
  simp [opcOf, BitVec.extractLsb'_toNat]

theorem fieldOf_toNat (w : InstrWord) : (fieldOf w).toNat = w.toNat / 2 ^ 6 := by
  have := w.isLt
  simp only [fieldOf, BitVec.extractLsb'_toNat, Nat.shiftRight_eq_div_pow]
  omega

/-- A word is its opcode and its field. -/
theorem word_eq_of_parts {w w' : InstrWord} (ho : opcOf w = opcOf w') (hf : fieldOf w = fieldOf w') : w = w' := by
  have h1 := congrArg BitVec.toNat ho
  have h2 := congrArg BitVec.toNat hf
  rw [opcOf_toNat, opcOf_toNat] at h1
  rw [fieldOf_toNat, fieldOf_toNat] at h2
  apply BitVec.eq_of_toNat_eq
  omega

/-- Masking to the declared width is the remainder (40_codec.md R115). -/
theorem operandOf_toNat (k : Kind) (f : BitVec 34) : (operandOf k f).toNat = f.toNat % 2 ^ k.width := by
  have hk : k.width ≤ 32 := by cases k <;> decide
  have hp : 2 ^ k.width ≤ 2 ^ 32 := Nat.pow_le_pow_right (by decide) hk
  have h0 : 0 < 2 ^ k.width := Nat.two_pow_pos _
  have hm : (2 ^ k.width - 1) % 2 ^ 34 = 2 ^ k.width - 1 := Nat.mod_eq_of_lt (by omega)
  have hlt : f.toNat % 2 ^ k.width < 2 ^ k.width := Nat.mod_lt _ h0
  simp only [operandOf, BitVec.toNat_setWidth, BitVec.toNat_and, BitVec.toNat_ofNat, hm, Nat.and_two_pow_sub_one_eq_mod]
  exact Nat.mod_eq_of_lt (by omega)

theorem Kind.opcode_injective {k k' : Kind} (h : k.opcode = k'.opcode) : k = k' := by
  cases k <;> cases k' <;> first | rfl | (exact absurd h (by decide))

theorem classify_opcode (k : Kind) : classify k.opcode = some k := by
  cases k <;> rfl

theorem classify_eq_some {o : BitVec 6} {k : Kind} (h : classify o = some k) : o = k.opcode := by
  unfold classify at h
  repeat' split at h
  all_goals first
    | (cases h; assumption)
    | (cases h)

/-- A legal opcode is one of the four (30_encoding.md R95). -/
theorem classify_eq_none_iff (o : BitVec 6) : classify o = none ↔ o ≠ 33 ∧ o ≠ 24 ∧ o ≠ 13 ∧ o ≠ 54 := by
  unfold classify
  repeat' split
  all_goals simp_all

theorem Kind.instr_kind (k : Kind) (v : Word) : (k.instr v).kind = k := by cases k <;> rfl

theorem Instr.kind_instr (i : Instr) : i.kind.instr i.operand = i := by cases i <;> rfl

/-- An instruction is its kind and its operand. -/
theorem Instr.eq_of_parts {i j : Instr} (hk : i.kind = j.kind) (ho : i.operand = j.operand) : i = j := by
  rw [← Instr.kind_instr i, ← Instr.kind_instr j, hk, ho]

/-- The operand of the instruction a kind and a masked field make. -/
theorem Kind.instr_operand (k : Kind) (f : BitVec 34) : (k.instr (operandOf k f)).operand = operandOf k f := by
  cases k <;> try rfl
  apply BitVec.eq_of_toNat_eq
  rw [operandOf_toNat]
  simp [Kind.instr, Instr.operand, Kind.width, Nat.mod_one]

/-- Valid means: the operand fits the declared width (40_codec.md R127). -/
theorem Instr.wellFormed_iff (i : Instr) : i.WellFormed ↔ i.operand.toNat < 2 ^ i.kind.width := by
  cases i with
  | load v => exact Iff.rfl
  | read k => exact Iff.rfl
  | write => simp [Instr.operand]
  | eq m => simpa [Instr.operand, Instr.kind, Kind.width] using m.isLt

theorem decodeWord_ok {w : InstrWord} {i : Instr} (h : decodeWord w = .ok i) :
    opcOf w = i.kind.opcode ∧ i.operand = operandOf i.kind (fieldOf w) := by
  unfold decodeWord at h
  split at h
  · cases h
  · next k hk =>
    cases h
    rw [Kind.instr_kind, Kind.instr_operand]
    exact ⟨classify_eq_some hk, rfl⟩

theorem decodeWord_of_parts {w : InstrWord} {i : Instr} (ho : opcOf w = i.kind.opcode)
    (hf : i.operand = operandOf i.kind (fieldOf w)) : decodeWord w = .ok i := by
  unfold decodeWord
  rw [ho, classify_opcode]
  simp only [← hf, Instr.kind_instr]

theorem decodeWord_error {w : InstrWord} {e : DecodeError} (h : decodeWord w = .error e) :
    classify (opcOf w) = none ∧ e = .unknownOpcode w := by
  unfold decodeWord at h
  split at h
  · next hk => cases h; exact ⟨hk, rfl⟩
  · cases h

/-- A word with an illegal opcode is rejected whole (40_codec.md R116). -/
theorem decodeWord_of_illegal {w : InstrWord} (h : classify (opcOf w) = none) :
    decodeWord w = .error (.unknownOpcode w) := by
  unfold decodeWord
  rw [h]

/-- A packed word as a number: the shift leaves the opcode's 6 bits 0 (40_codec.md R121, R124). -/
theorem packWord_toNat (k : Kind) {v : Nat} (hv : v < 2 ^ 32) : (packWord k v).toNat = v * 2 ^ 6 + k.opcode.toNat := by
  have ho : k.opcode.toNat < 2 ^ 6 := k.opcode.isLt
  simp only [packWord, BitVec.toNat_ofNat]
  rw [Nat.shiftLeft_eq, ← Nat.shiftLeft_eq, ← Nat.shiftLeft_add_eq_or_of_lt ho, Nat.shiftLeft_eq]
  exact Nat.mod_eq_of_lt (by omega)

theorem opcOf_packWord (k : Kind) {v : Nat} (hv : v < 2 ^ 32) : opcOf (packWord k v) = k.opcode := by
  have ho : k.opcode.toNat < 2 ^ 6 := k.opcode.isLt
  apply BitVec.eq_of_toNat_eq
  rw [opcOf_toNat, packWord_toNat k hv]
  omega

theorem fieldOf_packWord (k : Kind) {v : Nat} (hv : v < 2 ^ 32) : (fieldOf (packWord k v)).toNat = v := by
  have ho : k.opcode.toNat < 2 ^ 6 := k.opcode.isLt
  rw [fieldOf_toNat, packWord_toNat k hv]
  omega

theorem Kind.width_le (k : Kind) : k.width ≤ 32 := by cases k <;> decide

theorem Kind.lt_of_fits {k : Kind} {v : Nat} (h : v < 2 ^ k.width) : v < 2 ^ 32 :=
  Nat.lt_of_lt_of_le h (Nat.pow_le_pow_right (by decide) k.width_le)

/-- Everything `encodeOperand` can answer (40_codec.md R124). -/
theorem encodeOperand_cases (k : Kind) (v : Nat) :
    (k = .write ∧ encodeOperand k v = .ok (packWord .write 0)) ∨
    (k ≠ .write ∧ v < 2 ^ k.width ∧ encodeOperand k v = .ok (packWord k v)) ∨
    (k ≠ .write ∧ 2 ^ k.width ≤ v ∧ encodeOperand k v = .error (.operandRange k v)) := by
  unfold encodeOperand
  by_cases hk : k = .write
  · simp [hk]
  · by_cases hv : v < 2 ^ k.width
    · simp [hk, hv]
    · simp [hk, hv]; omega

/-- What an encoded word holds. -/
theorem encodeOperand_ok {k : Kind} {v : Nat} {w : InstrWord} (h : encodeOperand k v = .ok w) :
    ∃ u, u < 2 ^ k.width ∧ (k ≠ .write → u = v) ∧ w = packWord k u := by
  rcases encodeOperand_cases k v with ⟨rfl, h'⟩ | ⟨_, hv, h'⟩ | ⟨_, _, h'⟩
  · rw [h] at h'; cases h'; exact ⟨0, by decide, by simp, rfl⟩
  · rw [h] at h'; cases h'; exact ⟨v, hv, fun _ => rfl, rfl⟩
  · rw [h] at h'; cases h'

theorem wordOfBytes_toNat (b0 b1 b2 b3 b4 : Byte) : (wordOfBytes b0 b1 b2 b3 b4).toNat =
    b0.toNat + b1.toNat * 2 ^ 8 + b2.toNat * 2 ^ 16 + b3.toNat * 2 ^ 24 + b4.toNat * 2 ^ 32 := by
  simp only [wordOfBytes, BitVec.toNat_ofNat]
  exact Nat.mod_eq_of_lt (by omega)

/-- The bytes of a word give the word back (30_encoding.md R82). -/
theorem wordOfBytes_bytesOfWord (w : InstrWord) :
    wordOfBytes (w.extractLsb' 0 8) (w.extractLsb' 8 8) (w.extractLsb' 16 8) (w.extractLsb' 24 8) (w.extractLsb' 32 8) =
      w := by
  have := w.isLt
  apply BitVec.eq_of_toNat_eq
  rw [wordOfBytes_toNat]
  simp only [BitVec.extractLsb'_toNat, Nat.shiftRight_eq_div_pow]
  omega

@[simp] theorem bytesOfWord_length (w : InstrWord) : (bytesOfWord w).length = 5 := rfl

/-- Decoding five bytes is decoding their word. -/
theorem decode_cons (b0 b1 b2 b3 b4 : Byte) (rest : List Byte) :
    decode (b0 :: b1 :: b2 :: b3 :: b4 :: rest) =
      (decodeWord (wordOfBytes b0 b1 b2 b3 b4)).map fun i => (i, rest) := rfl

/-- Decoding the bytes of a word is decoding the word. -/
theorem decode_bytesOfWord (w : InstrWord) (rest : List Byte) :
    decode (bytesOfWord w ++ rest) = (decodeWord w).map fun i => (i, rest) := by
  simp only [bytesOfWord, List.cons_append, List.nil_append]
  rw [decode_cons, wordOfBytes_bytesOfWord]

/-- A list of bytes is too short for an instruction or begins with one's five bytes. -/
theorem bytes_cases (bs : List Byte) :
    (bs.length < 5 ∧ decode bs = .error .truncated) ∨
    (∃ b0 b1 b2 b3 b4 rest, bs = b0 :: b1 :: b2 :: b3 :: b4 :: rest) := by
  rcases bs with _ | ⟨b0, _ | ⟨b1, _ | ⟨b2, _ | ⟨b3, _ | ⟨b4, rest⟩⟩⟩⟩⟩
  · exact .inl ⟨by simp, rfl⟩
  · exact .inl ⟨by simp, rfl⟩
  · exact .inl ⟨by simp, rfl⟩
  · exact .inl ⟨by simp, rfl⟩
  · exact .inl ⟨by simp, rfl⟩
  · exact .inr ⟨b0, b1, b2, b3, b4, rest, rfl⟩

/-- Everything `decode` can answer on bytes that hold an instruction word. -/
theorem decode_cons_cases (b0 b1 b2 b3 b4 : Byte) (rest : List Byte) :
    (∃ i, decodeWord (wordOfBytes b0 b1 b2 b3 b4) = .ok i ∧
      decode (b0 :: b1 :: b2 :: b3 :: b4 :: rest) = .ok (i, rest)) ∨
    (classify (opcOf (wordOfBytes b0 b1 b2 b3 b4)) = none ∧
      decode (b0 :: b1 :: b2 :: b3 :: b4 :: rest) = .error (.unknownOpcode (wordOfBytes b0 b1 b2 b3 b4))) := by
  rw [decode_cons]
  rcases h : decodeWord (wordOfBytes b0 b1 b2 b3 b4) with e | i
  · obtain ⟨hc, rfl⟩ := decodeWord_error h
    exact .inr ⟨hc, rfl⟩
  · exact .inl ⟨i, rfl, rfl⟩

/-- What a successful `decode` read. -/
theorem decode_ok {bs rest : List Byte} {i : Instr} (h : decode bs = .ok (i, rest)) :
    ∃ b0 b1 b2 b3 b4, bs = b0 :: b1 :: b2 :: b3 :: b4 :: rest ∧
      decodeWord (wordOfBytes b0 b1 b2 b3 b4) = .ok i := by
  rcases bytes_cases bs with ⟨_, h'⟩ | ⟨b0, b1, b2, b3, b4, r, rfl⟩
  · rw [h] at h'; cases h'
  · rcases decode_cons_cases b0 b1 b2 b3 b4 r with ⟨j, hj, hd⟩ | ⟨_, hd⟩
    · rw [h] at hd; cases hd; exact ⟨_, _, _, _, _, rfl, hj⟩
    · rw [h] at hd; cases hd

/-- Canonical means: the field fits the declared width (40_codec.md R118). -/
theorem noncanonical_eq_false_iff (k : Kind) (w : InstrWord) :
    noncanonical k w = false ↔ (fieldOf w).toNat < 2 ^ k.width := by
  have h : noncanonical k w = false ↔ fieldOf w >>> k.width = 0 := by simp [noncanonical]
  rw [h, ← BitVec.toNat_inj, BitVec.toNat_ushiftRight, Nat.shiftRight_eq_div_pow]
  simp [Nat.div_eq_zero_iff]

end Sys2Proof
end

