-- ==== Sys2Proof/Laws/Assembler.lean ====
section
/-! SUPPORT. What assembling one entry gives. -/

namespace Sys2Proof.Machine

/-- The bytes of an assembled entry are those of a word that decodes to its mnemonic with its operand. -/
theorem assembleEntry_ok {j : Nat} {e : SourceEntry} {bs : List Byte} (h : assembleEntry j e = .ok bs) :
    ∃ i w, bs = bytesOfWord w ∧ decodeWord w = .ok i ∧ kindOfMnemonic e.op = some i.kind ∧
      (i.kind ≠ .write → i.operand.toNat = e.arg.getD 0) := by
  unfold assembleEntry at h
  split at h
  · cases h
  · next k hk =>
    unfold encodeBytes at h
    rcases he : encodeOperand k (e.arg.getD 0) with err | w
    · rw [he] at h; cases err; simp [Except.map] at h
    · rw [he] at h
      simp only [Except.map, Except.ok.injEq] at h
      obtain ⟨u, hu, hku, rfl⟩ := encodeOperand_ok he
      have h32 := Kind.lt_of_fits hu
      have hi := Kind.instr_kind k (operandOf k (fieldOf (packWord k u)))
      refine ⟨k.instr (operandOf k (fieldOf (packWord k u))), packWord k u, h.symm, ?_, by rw [hi, hk], fun hw => ?_⟩
      · unfold decodeWord; rw [opcOf_packWord k h32, classify_opcode]
      · rw [hi] at hw
        rw [Kind.instr_operand, operandOf_toNat, fieldOf_packWord k h32, Nat.mod_eq_of_lt hu, hku hw]

/-- A letter that is in lower case already stays. -/
theorem lowerLetter_lowerLetter (c : Char) : lowerLetter (lowerLetter c) = lowerLetter c := by
  unfold lowerLetter
  by_cases h : 65 ≤ c.toNat ∧ c.toNat ≤ 90
  · rw [if_pos h]
    have hn : (Char.ofNat (c.toNat + 32)).toNat = c.toNat + 32 :=
      (Char.toNat_ofNat _).trans (if_pos (.inl (by omega)))
    rw [if_neg (by omega)]
  · rw [if_neg h, if_neg h]

end Sys2Proof.Machine
end

