-- ==== Sys2Proof/Laws/State.lean ====
section
/-! SUPPORT. One lemma per field per update of the state. -/

namespace Sys2Proof.Machine

@[simp] theorem State.advance_pc (s : State) : s.advance.pc = s.pc + 1 := rfl
@[simp] theorem State.advance_stk (s : State) : s.advance.stk = s.stk := rfl
@[simp] theorem State.advance_dmem (s : State) : s.advance.dmem = s.dmem := rfl
@[simp] theorem State.advance_cause (s : State) : s.advance.cause = s.cause := rfl
@[simp] theorem State.advance_epc (s : State) : s.advance.epc = s.epc := rfl
@[simp] theorem State.advance_tval (s : State) : s.advance.tval = s.tval := rfl
@[simp] theorem State.advance_imem (s : State) : s.advance.imem = s.imem := rfl
@[simp] theorem State.advance_memSize (s : State) : s.advance.memSize = s.memSize := rfl
@[simp] theorem State.advance_stackDepth (s : State) : s.advance.stackDepth = s.stackDepth := rfl

@[simp] theorem State.raise_pc (s : State) (e : MachineError) : (s.raise e).pc = s.pc := rfl
@[simp] theorem State.raise_stk (s : State) (e : MachineError) : (s.raise e).stk = s.stk := rfl
@[simp] theorem State.raise_dmem (s : State) (e : MachineError) : (s.raise e).dmem = s.dmem := rfl
@[simp] theorem State.raise_cause (s : State) (e : MachineError) : (s.raise e).cause = e.code := rfl
@[simp] theorem State.raise_epc (s : State) (e : MachineError) : (s.raise e).epc = s.pc := rfl
@[simp] theorem State.raise_tval (s : State) (e : MachineError) : (s.raise e).tval = e.detail := rfl
@[simp] theorem State.raise_imem (s : State) (e : MachineError) : (s.raise e).imem = s.imem := rfl
@[simp] theorem State.raise_memSize (s : State) (e : MachineError) : (s.raise e).memSize = s.memSize := rfl
@[simp] theorem State.raise_stackDepth (s : State) (e : MachineError) : (s.raise e).stackDepth = s.stackDepth := rfl

@[simp] theorem State.dropTwo_pc (s : State) : s.dropTwo.pc = s.pc := rfl
@[simp] theorem State.dropTwo_stk (s : State) : s.dropTwo.stk = s.stk.drop 2 := rfl
@[simp] theorem State.dropTwo_dmem (s : State) : s.dropTwo.dmem = s.dmem := rfl
@[simp] theorem State.dropTwo_cause (s : State) : s.dropTwo.cause = s.cause := rfl
@[simp] theorem State.dropTwo_epc (s : State) : s.dropTwo.epc = s.epc := rfl
@[simp] theorem State.dropTwo_tval (s : State) : s.dropTwo.tval = s.tval := rfl
@[simp] theorem State.dropTwo_imem (s : State) : s.dropTwo.imem = s.imem := rfl
@[simp] theorem State.dropTwo_memSize (s : State) : s.dropTwo.memSize = s.memSize := rfl
@[simp] theorem State.dropTwo_stackDepth (s : State) : s.dropTwo.stackDepth = s.stackDepth := rfl

@[simp] theorem State.memWrite_pc (s : State) (a : Nat) (v : Word) : (s.memWrite a v).pc = s.pc := rfl
@[simp] theorem State.memWrite_stk (s : State) (a : Nat) (v : Word) : (s.memWrite a v).stk = s.stk := rfl
@[simp] theorem State.memWrite_dmem (s : State) (a : Nat) (v : Word) : (s.memWrite a v).dmem = s.dmem.write a v := rfl
@[simp] theorem State.memWrite_cause (s : State) (a : Nat) (v : Word) : (s.memWrite a v).cause = s.cause := rfl
@[simp] theorem State.memWrite_epc (s : State) (a : Nat) (v : Word) : (s.memWrite a v).epc = s.epc := rfl
@[simp] theorem State.memWrite_tval (s : State) (a : Nat) (v : Word) : (s.memWrite a v).tval = s.tval := rfl
@[simp] theorem State.memWrite_imem (s : State) (a : Nat) (v : Word) : (s.memWrite a v).imem = s.imem := rfl
@[simp] theorem State.memWrite_memSize (s : State) (a : Nat) (v : Word) : (s.memWrite a v).memSize = s.memSize := rfl
@[simp] theorem State.memWrite_stackDepth (s : State) (a : Nat) (v : Word) : (s.memWrite a v).stackDepth = s.stackDepth := rfl

@[simp] theorem State.placeNext_pc (s : State) (w : InstrWord) : (s.placeNext w).pc = s.pc := rfl
@[simp] theorem State.placeNext_stk (s : State) (w : InstrWord) : (s.placeNext w).stk = s.stk := rfl
@[simp] theorem State.placeNext_dmem (s : State) (w : InstrWord) : (s.placeNext w).dmem = s.dmem := rfl
@[simp] theorem State.placeNext_cause (s : State) (w : InstrWord) : (s.placeNext w).cause = 0 := rfl
@[simp] theorem State.placeNext_epc (s : State) (w : InstrWord) : (s.placeNext w).epc = s.epc := rfl
@[simp] theorem State.placeNext_tval (s : State) (w : InstrWord) : (s.placeNext w).tval = s.tval := rfl
@[simp] theorem State.placeNext_imem (s : State) (w : InstrWord) : (s.placeNext w).imem = placeWord s.imem s.pc w := rfl
@[simp] theorem State.placeNext_memSize (s : State) (w : InstrWord) : (s.placeNext w).memSize = s.memSize := rfl
@[simp] theorem State.placeNext_stackDepth (s : State) (w : InstrWord) : (s.placeNext w).stackDepth = s.stackDepth := rfl

@[simp] theorem State.boot_pc (n : Nat) (d : StackDepth) (blob : List Byte) :
    (State.boot n d blob).pc = 0 := rfl
@[simp] theorem State.boot_stk (n : Nat) (d : StackDepth) (blob : List Byte) :
    (State.boot n d blob).stk = [] := rfl
@[simp] theorem State.boot_dmem (n : Nat) (d : StackDepth) (blob : List Byte) :
    (State.boot n d blob).dmem = [] := rfl
@[simp] theorem State.boot_cause (n : Nat) (d : StackDepth) (blob : List Byte) :
    (State.boot n d blob).cause = if blob.length % 5 = 0 then 0 else 1 := rfl
@[simp] theorem State.boot_epc (n : Nat) (d : StackDepth) (blob : List Byte) :
    (State.boot n d blob).epc = 0 := rfl
@[simp] theorem State.boot_tval (n : Nat) (d : StackDepth) (blob : List Byte) :
    (State.boot n d blob).tval = BitVec.ofNat 40 (blob.length % 5) := rfl
@[simp] theorem State.boot_imem (n : Nat) (d : StackDepth) (blob : List Byte) :
    (State.boot n d blob).imem = blob := rfl
@[simp] theorem State.boot_memSize (n : Nat) (d : StackDepth) (blob : List Byte) :
    (State.boot n d blob).memSize = n := rfl
@[simp] theorem State.boot_stackDepth (n : Nat) (d : StackDepth) (blob : List Byte) :
    (State.boot n d blob).stackDepth = d := rfl

/-! The views depend on these fields only. -/

theorem State.sp_def (s : State) : s.sp = s.stk.length := rfl
theorem State.memRead_def (s : State) (a : Nat) : s.memRead a = s.dmem.read a := rfl
@[simp] theorem State.advance_sp (s : State) : s.advance.sp = s.sp := rfl
@[simp] theorem State.raise_sp (s : State) (e : MachineError) : (s.raise e).sp = s.sp := rfl
@[simp] theorem State.memWrite_sp (s : State) (a : Nat) (v : Word) : (s.memWrite a v).sp = s.sp := rfl
@[simp] theorem State.dropTwo_sp (s : State) : s.dropTwo.sp = s.sp - 2 := by
  simp [State.sp, State.dropTwo]
@[simp] theorem State.advance_memRead (s : State) (a : Nat) : s.advance.memRead a = s.memRead a := rfl
@[simp] theorem State.raise_memRead (s : State) (e : MachineError) (a : Nat) : (s.raise e).memRead a = s.memRead a := rfl
@[simp] theorem State.dropTwo_memRead (s : State) (a : Nat) : s.dropTwo.memRead a = s.memRead a := rfl
@[simp] theorem State.advance_progWords (s : State) : s.advance.progWords = s.progWords := rfl
@[simp] theorem State.raise_progWords (s : State) (e : MachineError) : (s.raise e).progWords = s.progWords := rfl
@[simp] theorem State.boot_memRead (n : Nat) (d : StackDepth) (blob : List Byte) (a : Nat) :
    (State.boot n d blob).memRead a = 0 := rfl

theorem Config.memSize_eq : Config.memSize = Config.memSizeLessOne.toNat + 1 := rfl

/-- `MEM_SIZE` of `State.reset` is in the range of 00_scope.md R6. -/
theorem Config.memSize_bounds : 1 ≤ Config.memSize ∧ Config.memSize ≤ 2 ^ 32 := by
  have := Config.memSizeLessOne.isLt
  rw [Config.memSize_eq]
  omega

/-- No error has the code 0 (10_state.md R33). -/
theorem MachineError.code_ne_zero (e : MachineError) : e.code ≠ 0 := by
  cases e <;> simp [MachineError.code]

end Sys2Proof.Machine
end

