-- ==== Sys2Proof/Laws/Memory.lean ====
section
/-! SUPPORT. The data memory: read after write, the canonical form, equal reads. -/

namespace Sys2Proof.Machine

@[simp] theorem Memory.read_nil (a : Nat) : Memory.read [] a = 0 := rfl

theorem Memory.wfFrom_mono {lo lo' : Nat} {m : Memory} (h : Memory.wfFrom lo m = true) (hl : lo' ≤ lo) :
    Memory.wfFrom lo' m = true := by
  cases m with
  | nil => rfl
  | cons p m =>
    simp only [Memory.wfFrom, Bool.and_eq_true, decide_eq_true_eq] at h ⊢
    exact ⟨⟨by omega, h.1.2⟩, h.2⟩

/-- Below its first address a canonical memory reads 0. -/
theorem Memory.read_below {lo : Nat} {m : Memory} (h : Memory.wfFrom lo m = true) {a : Nat} (ha : a < lo) :
    m.read a = 0 := by
  induction m generalizing lo with
  | nil => rfl
  | cons p m ih =>
    simp only [Memory.wfFrom, Bool.and_eq_true, decide_eq_true_eq] at h
    simp only [Memory.read]
    rw [if_neg (by omega)]
    exact ih h.2 (by omega)

theorem Memory.wfFrom_write {lo : Nat} {m : Memory} (h : Memory.wfFrom lo m = true) {a : Nat} (ha : lo ≤ a) (v : Word) :
    Memory.wfFrom lo (m.write a v) = true := by
  induction m generalizing lo with
  | nil => by_cases hv : v = 0#32 <;> simp [Memory.write, Memory.wfFrom, hv, ha]
  | cons p m ih =>
    obtain ⟨b, w⟩ := p
    simp only [Memory.wfFrom, Bool.and_eq_true, decide_eq_true_eq] at h
    obtain ⟨⟨hlo, hw⟩, hm⟩ := h
    simp only [Memory.write]
    split
    · next hab =>
      have hm' : Memory.wfFrom (a + 1) ((b, w) :: m) = true := by
        simp only [Memory.wfFrom, Bool.and_eq_true, decide_eq_true_eq]; exact ⟨⟨by omega, hw⟩, hm⟩
      split
      · exact Memory.wfFrom_mono hm' (by omega)
      · next hv =>
        rw [Memory.wfFrom, hm']
        simpa [ha] using hv
    · split
      · next hab =>
        subst hab
        split
        · exact Memory.wfFrom_mono hm (by omega)
        · next hv =>
          rw [Memory.wfFrom, hm]
          simpa [ha] using hv
      · next h1 h2 =>
        simp only [Memory.wfFrom, Bool.and_eq_true, decide_eq_true_eq]
        exact ⟨⟨hlo, hw⟩, ih hm (by omega)⟩

/-- A store keeps the canonical form. -/
theorem Memory.wf_write {m : Memory} (h : m.wf = true) (a : Nat) (v : Word) : (m.write a v).wf = true :=
  Memory.wfFrom_write h (Nat.zero_le a) v

theorem Memory.read_write_from {lo : Nat} {m : Memory} (h : Memory.wfFrom lo m = true) (a : Nat) (v : Word) (b : Nat) :
    (m.write a v).read b = if b = a then v else m.read b := by
  induction m generalizing lo with
  | nil => by_cases hv : v = 0#32 <;> simp [Memory.write, Memory.read, hv]
  | cons p m ih =>
    obtain ⟨c, w⟩ := p
    have h' := h
    simp only [Memory.wfFrom, Bool.and_eq_true, decide_eq_true_eq] at h'
    obtain ⟨⟨_, _⟩, hm⟩ := h'
    simp only [Memory.write]
    split
    · next hac =>
      split
      · next hv =>
        by_cases hb : b = a
        · have hc : Memory.wfFrom c ((c, w) :: m) = true := by
            simp only [Memory.wfFrom, Bool.and_eq_true, decide_eq_true_eq] at h ⊢; exact ⟨⟨by omega, h.1.2⟩, h.2⟩
          rw [if_pos hb, Memory.read_below hc (by omega), hv]
        · rw [if_neg hb]
      · rfl
    · split
      · next hac =>
        subst hac
        split
        · next hv =>
          by_cases hb : b = a
          · rw [if_pos hb, hb, Memory.read_below hm (by omega), hv]
          · simp [Memory.read, hb]
        · by_cases hb : b = a <;> simp [Memory.read, hb]
      · next h1 h2 =>
        simp only [Memory.read]
        by_cases hbc : b = c
        · rw [if_pos hbc, if_pos hbc, if_neg (by omega)]
        · rw [if_neg hbc, if_neg hbc, ih hm]

/-- Read after write: the stored value at its address, the old cell everywhere else (20_memory.md R61). -/
theorem Memory.read_write {m : Memory} (h : m.wf = true) (a : Nat) (v : Word) (b : Nat) :
    (m.write a v).read b = if b = a then v else m.read b :=
  Memory.read_write_from h a v b

/-- A store leaves every other address alone, whatever the form of the memory. -/
theorem Memory.read_write_ne (m : Memory) {a b : Nat} (v : Word) (h : b ≠ a) : (m.write a v).read b = m.read b := by
  induction m with
  | nil => by_cases hv : v = 0#32 <;> simp [Memory.write, Memory.read, hv, h]
  | cons p m ih =>
    obtain ⟨c, w⟩ := p
    simp only [Memory.write]
    split
    · split
      · rfl
      · rw [Memory.read, if_neg h]
    · split
      · next hac =>
        subst hac
        split <;> simp only [Memory.read, if_neg h]
      · simp only [Memory.read, ih]

/-- Every listed address of the memory after a store was listed before or is the one stored to. -/
theorem Memory.mem_write {m : Memory} {a : Nat} {v : Word} {p : Nat × Word} (h : p ∈ m.write a v) :
    p = (a, v) ∨ p ∈ m := by
  induction m with
  | nil =>
    simp only [Memory.write] at h
    split at h <;> simp_all
  | cons q m ih =>
    obtain ⟨c, w⟩ := q
    simp only [Memory.write] at h
    rw [List.mem_cons]
    split at h
    · split at h
      · exact .inr (List.mem_cons.mp h)
      · exact (List.mem_cons.mp h).imp_right List.mem_cons.mp
    · split at h
      · split at h
        · exact .inr (.inr h)
        · exact (List.mem_cons.mp h).imp_right .inr
      · rcases List.mem_cons.mp h with h | h
        · exact .inr (.inl h)
        · exact (ih h).imp_right .inr

/-- In a canonical memory every listed cell is what its address reads as. -/
theorem Memory.read_mem {lo : Nat} {m : Memory} (h : Memory.wfFrom lo m = true) {a : Nat} {v : Word}
    (hp : (a, v) ∈ m) : m.read a = v ∧ lo ≤ a := by
  induction m generalizing lo with
  | nil => simp at hp
  | cons q m ih =>
    obtain ⟨c, w⟩ := q
    simp only [Memory.wfFrom, Bool.and_eq_true, decide_eq_true_eq] at h
    rcases List.mem_cons.mp hp with hq | hq
    · obtain ⟨rfl, rfl⟩ := Prod.mk.inj hq
      exact ⟨by simp [Memory.read], h.1.1⟩
    · obtain ⟨h1, h2⟩ := ih h.2 hq
      refine ⟨?_, by omega⟩
      simp only [Memory.read]
      rw [if_neg (by omega), h1]

/-- A cell that reads other than 0 is listed. -/
theorem Memory.mem_of_read {m : Memory} {a : Nat} (h : m.read a ≠ 0) : (a, m.read a) ∈ m := by
  induction m with
  | nil => simp at h
  | cons q m ih =>
    obtain ⟨c, w⟩ := q
    simp only [Memory.read] at h ⊢
    split
    · next hc => subst hc; simp
    · next hc => rw [if_neg hc] at h; exact List.mem_cons_of_mem _ (ih h)

/-- The stored memory on the state: read after write through `memRead`. -/
theorem State.memRead_memWrite {s : State} (h : s.dmem.wf = true) (a : Nat) (v : Word) (b : Nat) :
    (s.memWrite a v).memRead b = if b = a then v else s.memRead b :=
  Memory.read_write h a v b

end Sys2Proof.Machine
end

