-- ==== Sys2Proof/Laws/Ops.lean ====
section
/-! SUPPORT. One lemma per shared operation: everything it can answer. -/

namespace Sys2Proof.Machine

/-- The stack is full exactly when `SP = STACK_DEPTH` (42_stack_memory_ops.md R160). -/
theorem State.stackFull_iff (s : State) : s.stackFull = true ↔ s.stackDepth.entries = some s.sp := by
  unfold State.stackFull StackDepth.reached StackDepth.entries
  cases s.sp <;> cases s.stackDepth <;> simp [eq_comm]

theorem State.push_eq (s : State) (v : Word) :
    s.push v = if s.stackDepth.entries = some s.sp then .error (.stackOverflow s.sp)
      else .ok { s with stk := v :: s.stk } := by
  by_cases h : s.stackDepth.entries = some s.sp
  · simp [State.push, h, (State.stackFull_iff s).mpr h]
  · have hf : s.stackFull = false := by simpa using mt (State.stackFull_iff s).mp h
    simp [State.push, h, hf]

theorem State.push_ok {s t : State} {v : Word} (h : s.push v = .ok t) :
    s.stackDepth.entries ≠ some s.sp ∧ t = { s with stk := v :: s.stk } := by
  rw [State.push_eq] at h
  split at h
  · cases h
  · cases h; exact ⟨‹_›, rfl⟩

theorem State.push_error {s : State} {v : Word} {e : MachineError} (h : s.push v = .error e) :
    s.stackDepth.entries = some s.sp ∧ e = .stackOverflow s.sp := by
  rw [State.push_eq] at h
  split at h
  · cases h; exact ⟨‹_›, rfl⟩
  · cases h

theorem State.top_cases (s : State) :
    (s.sp = 0 ∧ s.stk = [] ∧ s.top = .error (.stackUnderflow 0)) ∨
    (∃ b rest, s.stk = b :: rest ∧ s.top = .ok b) := by
  rcases h : s.stk with _ | ⟨b, rest⟩
  · left; simp [State.sp, State.top, h]
  · right; exact ⟨b, rest, rfl, by simp [State.top, h]⟩

theorem State.topTwo_cases (s : State) :
    (s.sp < 2 ∧ s.topTwo = .error (.stackUnderflow s.sp)) ∨
    (∃ b a rest, s.stk = b :: a :: rest ∧ s.topTwo = .ok (b, a)) := by
  rcases h : s.stk with _ | ⟨b, _ | ⟨a, rest⟩⟩
  · left; simp [State.sp, State.topTwo, h]
  · left; simp [State.sp, State.topTwo, h]
  · right; exact ⟨b, a, rest, rfl, by simp [State.topTwo, h]⟩

theorem State.checkBounds_cases (s : State) (addr : Nat) :
    (addr < s.memSize ∧ s.checkBounds addr = .ok addr) ∨
    (s.memSize ≤ addr ∧ s.checkBounds addr = .error (.outOfBounds addr)) := by
  unfold State.checkBounds
  by_cases h : addr < s.memSize
  · left; simp [h]
  · right; simp [h]; omega

@[simp] theorem State.finish_ok (s t : State) : s.finish (.ok t) = .next t.advance := rfl
@[simp] theorem State.finish_error (s : State) (e : MachineError) : s.finish (.error e) = .next (s.raise e) := rfl

/-- An instruction always gives a next state: its effect and the next `PC`, or its error. -/
theorem State.finish_next {s t : State} {r : Except MachineError State} (h : s.finish r = .next t) :
    (∃ u, r = .ok u ∧ t = u.advance) ∨ (∃ e, r = .error e ∧ t = s.raise e) := by
  cases r with
  | ok u => left; simp at h; exact ⟨u, rfl, h.symm⟩
  | error e => right; simp at h; exact ⟨e, rfl, h.symm⟩

/-- A number below 2^40 is recorded whole. -/
theorem tvalOfNat_toNat {n : Nat} (h : n < 2 ^ 40) : (tvalOfNat n).toNat = n := by
  unfold tvalOfNat
  rw [if_pos h, BitVec.toNat_ofNat, Nat.mod_eq_of_lt h]

theorem tvalOfNat_eq {n : Nat} (h : n < 2 ^ 40) : tvalOfNat n = BitVec.ofNat 40 n := by
  unfold tvalOfNat
  rw [if_pos h]

theorem State.checkBounds_ok {s : State} {a : Nat} (h : a < s.memSize) : s.checkBounds a = .ok a := by
  unfold State.checkBounds
  rw [if_pos h]

theorem State.checkBounds_error {s : State} {a : Nat} (h : s.memSize ≤ a) :
    s.checkBounds a = .error (.outOfBounds a) := by
  unfold State.checkBounds
  rw [if_neg (Nat.not_lt.mpr h)]

theorem State.topTwo_error {s : State} (h : s.sp < 2) : s.topTwo = .error (.stackUnderflow s.sp) := by
  rcases s.topTwo_cases with ⟨_, h'⟩ | ⟨_, _, _, h', _⟩
  · exact h'
  · simp [State.sp, h'] at h

theorem stackBaseAddress_lt (b k : Word) : stackBaseAddress b k < 2 ^ 40 := by
  unfold stackBaseAddress; omega

theorem stackAddress_lt (a : Word) : stackAddress a < 2 ^ 40 := by
  unfold stackAddress; omega

theorem instructionAddress_lt (m : Word) : instructionAddress m < 2 ^ 40 := by
  unfold instructionAddress; omega

end Sys2Proof.Machine
end

