-- ==== Sys2Proof/Laws/Exec.lean ====
section
/-! SUPPORT. What each instruction can do, said once: its effect, or which error it raises. -/

namespace Sys2Proof.Machine

/-- The errors an instruction can raise in a state: why, and what the detail is. -/
inductive Raised (s : State) (i : Instr) : MachineError → Prop where
  | underflow : s.sp < 2 → Raised s i (.stackUnderflow s.sp)
  | bounds (addr : Nat) : accessedAddress i s = some addr → addr < 2 ^ 40 → s.memSize ≤ addr →
      Raised s i (.outOfBounds addr)
  | overflow : s.stackDepth.entries = some s.sp → Raised s i (.stackOverflow s.sp)

/-- The effects the four instructions can have on a state. -/
inductive Effect (s : State) : Instr → State → Prop where
  | load (v : Word) : s.stackDepth.entries ≠ some s.sp → Effect s (.load v) { s with stk := v :: s.stk }
  | read (k base : Word) (rest : List Word) : s.stk = base :: rest → stackBaseAddress base k < s.memSize →
      s.stackDepth.entries ≠ some s.sp →
      Effect s (.read k) { s with stk := s.memRead (stackBaseAddress base k) :: s.stk }
  | write (value under : Word) (rest : List Word) : s.stk = value :: under :: rest → stackAddress under < s.memSize →
      Effect s .write { s with stk := rest, dmem := s.dmem.write (stackAddress under) value }
  | eq (m b a : Word) (rest : List Word) : s.stk = b :: a :: rest → instructionAddress m < s.memSize →
      Effect s (.eq m) { s with stk := rest, dmem := s.dmem.write (instructionAddress m) (eqVerdict a b) }

theorem loadEffect_cases (v : Word) (s : State) :
    (∃ u, loadEffect v s = .ok u ∧ Effect s (.load v) u) ∨ (∃ e, loadEffect v s = .error e ∧ Raised s (.load v) e) := by
  rcases h : s.push v with e | u
  · obtain ⟨h1, rfl⟩ := State.push_error h
    exact .inr ⟨_, h, .overflow h1⟩
  · obtain ⟨h1, rfl⟩ := State.push_ok h
    exact .inl ⟨_, h, .load v h1⟩

theorem readEffect_cases (k : Word) (s : State) :
    (∃ u, readEffect k s = .ok u ∧ Effect s (.read k) u) ∨ (∃ e, readEffect k s = .error e ∧ Raised s (.read k) e) := by
  unfold readEffect
  rcases s.top_cases with ⟨h0, _, ht⟩ | ⟨base, rest, hs, ht⟩
  · exact .inr ⟨.stackUnderflow s.sp, by rw [ht, h0]; rfl, .underflow (by omega)⟩
  rcases s.checkBounds_cases (stackBaseAddress base k) with ⟨hb, hc⟩ | ⟨hb, hc⟩
  · rcases h : s.push (s.memRead (stackBaseAddress base k)) with e | u
    · obtain ⟨h1, rfl⟩ := State.push_error h
      exact .inr ⟨_, by simp [ht, hc, h, bind, Except.bind], .overflow h1⟩
    · obtain ⟨h1, rfl⟩ := State.push_ok h
      exact .inl ⟨_, by simp [ht, hc, h, bind, Except.bind], .read k base rest hs hb h1⟩
  · exact .inr ⟨_, by simp [ht, hc, bind, Except.bind], .bounds _ (by simp [accessedAddress, hs]) (stackBaseAddress_lt base k) hb⟩

theorem writeEffect_cases (s : State) :
    (∃ u, writeEffect s = .ok u ∧ Effect s .write u) ∨ (∃ e, writeEffect s = .error e ∧ Raised s .write e) := by
  unfold writeEffect
  rcases s.topTwo_cases with ⟨h0, ht⟩ | ⟨b, a, rest, hs, ht⟩
  · exact .inr ⟨_, by rw [ht]; rfl, .underflow h0⟩
  rcases s.checkBounds_cases (stackAddress a) with ⟨hb, hc⟩ | ⟨hb, hc⟩
  · exact .inl ⟨_, by
      simp [ht, hc, bind, Except.bind, pure, Except.pure, State.dropTwo, State.memWrite, hs], .write b a rest hs hb⟩
  · exact .inr ⟨_, by simp [ht, hc, bind, Except.bind], .bounds _ (by simp [accessedAddress, storedAddress, hs]) (stackAddress_lt a) hb⟩

theorem eqEffect_cases (m : Word) (s : State) :
    (∃ u, eqEffect m s = .ok u ∧ Effect s (.eq m) u) ∨ (∃ e, eqEffect m s = .error e ∧ Raised s (.eq m) e) := by
  unfold eqEffect
  rcases s.topTwo_cases with ⟨h0, ht⟩ | ⟨b, a, rest, hs, ht⟩
  · exact .inr ⟨_, by rw [ht]; rfl, .underflow h0⟩
  rcases s.checkBounds_cases (instructionAddress m) with ⟨hb, hc⟩ | ⟨hb, hc⟩
  · exact .inl ⟨_, by
      simp [ht, hc, bind, Except.bind, pure, Except.pure, State.dropTwo, State.memWrite, hs], .eq m b a rest hs hb⟩
  · exact .inr ⟨_, by simp [ht, hc, bind, Except.bind], .bounds _ rfl (instructionAddress_lt m) hb⟩

/-- The effect each instruction's meaning computes. -/
def effectOf : Instr → State → Except MachineError State
  | .load v, s => loadEffect v s
  | .read k, s => readEffect k s
  | .write, s => writeEffect s
  | .eq m, s => eqEffect m s

/-- Every instruction is its effect and the common end of an instruction. -/
theorem exec_eq_finish (i : Instr) (s : State) : exec i s = s.finish (effectOf i s) := by
  cases i <;> rfl

theorem effectOf_cases (i : Instr) (s : State) :
    (∃ u, effectOf i s = .ok u ∧ Effect s i u) ∨ (∃ e, effectOf i s = .error e ∧ Raised s i e) := by
  cases i with
  | load v => exact loadEffect_cases v s
  | read k => exact readEffect_cases k s
  | write => exact writeEffect_cases s
  | eq m => exact eqEffect_cases m s

/-- Everything `exec` can answer: the instruction's effect and the next `PC`, or an error it may raise. -/
theorem exec_cases (i : Instr) (s : State) :
    (∃ u, exec i s = .next u.advance ∧ Effect s i u) ∨ (∃ e, exec i s = .next (s.raise e) ∧ Raised s i e) := by
  rcases effectOf_cases i s with ⟨u, h, he⟩ | ⟨e, h, hr⟩
  · exact .inl ⟨u, by rw [exec_eq_finish, h]; rfl, he⟩
  · exact .inr ⟨e, by rw [exec_eq_finish, h]; rfl, hr⟩

theorem exec_next {i : Instr} {s t : State} (h : exec i s = .next t) :
    (∃ u, t = u.advance ∧ Effect s i u) ∨ (∃ e, t = s.raise e ∧ Raised s i e) := by
  rcases exec_cases i s with ⟨u, h', he⟩ | ⟨e, h', hr⟩
  · left; rw [h] at h'; cases h'; exact ⟨u, rfl, he⟩
  · right; rw [h] at h'; cases h'; exact ⟨e, rfl, hr⟩

/-- An effect leaves `PC`, the status registers and the inputs of the run alone. -/
theorem Effect.frame {s u : State} {i : Instr} (h : Effect s i u) :
    u.pc = s.pc ∧ u.cause = s.cause ∧ u.epc = s.epc ∧ u.tval = s.tval ∧ u.imem = s.imem ∧ u.memSize = s.memSize ∧
      u.stackDepth = s.stackDepth := by
  cases h <;> simp

/-! ## The effects read neither `PC` nor the status registers -/

/-- A state with other contents in `PC` and the status registers. -/
def State.withStatus (s : State) (p : Nat) (c : BitVec 4) (e : Nat) (v : BitVec 40) : State :=
  { s with pc := p, cause := c, epc := e, tval := v }

theorem push_withStatus (s : State) (x : Word) (p : Nat) (c : BitVec 4) (e : Nat) (v : BitVec 40) :
    (s.withStatus p c e v).push x = (s.push x).map (·.withStatus p c e v) := by
  rw [State.push_eq, State.push_eq]
  change (if s.stackDepth.entries = some s.sp then _ else _) = _
  split <;> rfl

theorem readEffect_withStatus (k : Word) (s : State) (p : Nat) (c : BitVec 4) (e : Nat) (v : BitVec 40) :
    readEffect k (s.withStatus p c e v) = (readEffect k s).map (·.withStatus p c e v) := by
  have ht : (s.withStatus p c e v).top = s.top := rfl
  have hb : ∀ a, (s.withStatus p c e v).checkBounds a = s.checkBounds a := fun _ => rfl
  have hm : ∀ a, (s.withStatus p c e v).memRead a = s.memRead a := fun _ => rfl
  simp only [readEffect, ht, hb, hm, push_withStatus, bind, Except.bind]
  cases s.top with
  | error _ => rfl
  | ok b =>
    simp only
    cases s.checkBounds (stackBaseAddress b k) <;> rfl

theorem writeEffect_withStatus (s : State) (p : Nat) (c : BitVec 4) (e : Nat) (v : BitVec 40) :
    writeEffect (s.withStatus p c e v) = (writeEffect s).map (·.withStatus p c e v) := by
  have ht : (s.withStatus p c e v).topTwo = s.topTwo := rfl
  have hb : ∀ a, (s.withStatus p c e v).checkBounds a = s.checkBounds a := fun _ => rfl
  simp only [writeEffect, ht, hb, bind, Except.bind]
  cases s.topTwo with
  | error _ => rfl
  | ok x =>
    obtain ⟨_, a⟩ := x
    simp only
    cases s.checkBounds (stackAddress a) <;> rfl

theorem eqEffect_withStatus (m : Word) (s : State) (p : Nat) (c : BitVec 4) (e : Nat) (v : BitVec 40) :
    eqEffect m (s.withStatus p c e v) = (eqEffect m s).map (·.withStatus p c e v) := by
  have ht : (s.withStatus p c e v).topTwo = s.topTwo := rfl
  have hb : ∀ a, (s.withStatus p c e v).checkBounds a = s.checkBounds a := fun _ => rfl
  simp only [eqEffect, ht, hb, bind, Except.bind]
  cases s.topTwo with
  | error _ => rfl
  | ok x =>
    obtain ⟨_, a⟩ := x
    simp only
    cases s.checkBounds (instructionAddress m) <;> rfl

theorem effectOf_withStatus (i : Instr) (s : State) (p : Nat) (c : BitVec 4) (e : Nat) (v : BitVec 40) :
    effectOf i (s.withStatus p c e v) = (effectOf i s).map (·.withStatus p c e v) := by
  cases i with
  | load w => exact push_withStatus s w p c e v
  | read k => exact readEffect_withStatus k s p c e v
  | write => exact writeEffect_withStatus s p c e v
  | eq m => exact eqEffect_withStatus m s p c e v

/-- `exec` on a state with other contents in `PC` and the status registers: the same effect, or the same error. -/
theorem exec_withStatus (i : Instr) (s : State) (p : Nat) (c : BitVec 4) (e : Nat) (v : BitVec 40) :
    (∃ u : State, exec i s = .next u.advance ∧ Effect s i u ∧
      exec i (s.withStatus p c e v) = .next (u.withStatus p c e v).advance) ∨
    (∃ x, exec i s = .next (s.raise x) ∧ Raised s i x ∧
      exec i (s.withStatus p c e v) = .next ((s.withStatus p c e v).raise x)) := by
  rw [exec_eq_finish, exec_eq_finish, effectOf_withStatus]
  rcases effectOf_cases i s with ⟨u, h, he⟩ | ⟨x, h, hr⟩
  · exact .inl ⟨u, by rw [h]; rfl, he, by rw [h]; rfl⟩
  · exact .inr ⟨x, by rw [h]; rfl, hr, by rw [h]; rfl⟩

end Sys2Proof.Machine
end

