-- ==== Sys2Proof/Laws/PerInstr.lean ====
section
/-! SUPPORT. Statements about instructions as syntax, one lemma per constructor. -/

namespace Sys2Proof.Laws.FitsDeclaredWidth

/-- Well formed means that the operand fits the declared width of the instruction's kind (40_codec.md R127). -/
def Statement (i : Instr) : Prop := i.WellFormed ↔ i.operand.toNat < 2 ^ i.kind.width

theorem load (v : Word) : Statement (.load v) := Iff.rfl
theorem read (k : Word) : Statement (.read k) := Iff.rfl
theorem write : Statement .write := Instr.wellFormed_iff .write
theorem eq (m : Word) : Statement (.eq m) := Instr.wellFormed_iff (.eq m)

end Sys2Proof.Laws.FitsDeclaredWidth
end

