-- ==== Sys2Proof/Laws/Step.lean ====
section
/-! SUPPORT. What a step can do, said once, and when a state runs. -/

namespace Sys2Proof.Machine

theorem State.progWords_eq_some {s : State} {n : Nat} :
    s.progWords = some n ↔ s.imem.length = 5 * n := by
  unfold State.progWords State.progBytes
  split
  · simp only [Option.some.injEq]; omega
  · simp only [reduceCtorEq, false_iff]; omega

/-- Running (10_state.md R36). -/
theorem State.running_iff (s : State) : s.Running ↔ s.cause = 0 ∧ ∃ n, s.progWords = some n ∧ s.pc < n := by
  unfold State.Running State.runState
  by_cases hc : s.cause = 0#4
  · rcases h : s.progWords with _ | n
    · simp [hc]
    · by_cases h1 : s.pc < n
      · simp [hc, h1]
      · by_cases h2 : s.pc = n <;> simp [hc, h1, h2]
  · simp [hc]

/-- Halted-normally (10_state.md R36). -/
theorem State.haltedNormally_iff (s : State) :
    s.runState = .haltedNormally ↔ s.cause = 0 ∧ s.progWords = some s.pc := by
  unfold State.runState
  by_cases hc : s.cause = 0#4
  · rcases h : s.progWords with _ | n
    · simp [hc]
    · by_cases h1 : s.pc < n
      · simp [hc, h1]; omega
      · by_cases h2 : s.pc = n
        · simp [hc, h2]
        · simp [hc, h1, h2, Ne.symm h2]
  · simp [hc]

/-- Halted-on-error (10_state.md R36). -/
theorem State.haltedOnError_iff (s : State) : s.runState = .haltedOnError ↔ s.cause ≠ 0 := by
  unfold State.runState
  by_cases hc : s.cause = 0#4
  · rcases h : s.progWords with _ | n
    · simp [hc]
    · by_cases h1 : s.pc < n
      · simp [hc, h1]
      · by_cases h2 : s.pc = n <;> simp [hc, h1, h2]
  · simp [hc]

/-- A Running state has the five bytes of its next instruction (20_memory.md R57). -/
theorem State.Running.fetchBytes {s : State} (h : s.Running) :
    ∃ b0 b1 b2 b3 b4 rest, s.fetchBytes = b0 :: b1 :: b2 :: b3 :: b4 :: rest := by
  obtain ⟨_, n, hn, hpc⟩ := s.running_iff.mp h
  rcases bytes_cases s.fetchBytes with ⟨hl, _⟩ | h
  · have hl' : s.imem.length - 5 * s.pc < 5 := by simpa [State.fetchBytes] using hl
    have := State.progWords_eq_some.mp hn
    omega
  · exact h

theorem State.fetch_eq (s : State) : s.fetch = (decode s.fetchBytes).map Prod.fst := rfl

/-- The fetch decodes the word of the first five bytes at `PC` (20_memory.md R55). -/
theorem State.fetch_of_bytes {s : State} {b0 b1 b2 b3 b4 : Byte} {rest : List Byte}
    (h : s.imem.drop (5 * s.pc) = b0 :: b1 :: b2 :: b3 :: b4 :: rest) :
    s.fetch = decodeWord (wordOfBytes b0 b1 b2 b3 b4) := by
  rw [s.fetch_eq, State.fetchBytes, h, decode_cons]
  generalize wordOfBytes b0 b1 b2 b3 b4 = w
  cases decodeWord w <;> rfl

/-- What the fetch of a Running state can answer. -/
theorem State.Running.fetch_cases {s : State} (h : s.Running) :
    (∃ i, s.fetch = .ok i ∧ ∃ w, decodeWord w = .ok i) ∨
    (∃ b0 b1 b2 b3 b4 rest, s.imem.drop (5 * s.pc) = b0 :: b1 :: b2 :: b3 :: b4 :: rest ∧
      s.fetch = .error (.unknownOpcode (wordOfBytes b0 b1 b2 b3 b4)) ∧
      classify (opcOf (wordOfBytes b0 b1 b2 b3 b4)) = none) := by
  obtain ⟨b0, b1, b2, b3, b4, rest, hb⟩ := h.fetchBytes
  have hf := State.fetch_of_bytes hb
  rcases hd : decodeWord (wordOfBytes b0 b1 b2 b3 b4) with e | i
  · obtain ⟨hc, he⟩ := decodeWord_error hd
    exact .inr ⟨b0, b1, b2, b3, b4, rest, hb, by rw [hf, hd, he], hc⟩
  · exact .inl ⟨i, by rw [hf, hd], _, hd⟩

theorem step_of_fetch_ok {s : State} (h : s.Running) {i : Instr} (hf : s.fetch = .ok i) : step s = exec i s := by
  unfold step; rw [h, hf]

theorem step_of_fetch_unknown {s : State} (h : s.Running) {w : InstrWord}
    (hf : s.fetch = .error (.unknownOpcode w)) : step s = .next (s.raise (.unknownOpcode w)) := by
  unfold step; rw [h, hf]; rfl

/-- Only a Running state has a step (10_state.md R36). -/
theorem running_of_step {s t : State} (h : step s = .next t) : s.Running := by
  unfold step at h
  unfold State.Running
  split at h <;> first | assumption | cases h

/-- A decoded instruction's operand fits its declared width (40_codec.md R115). -/
theorem wellFormed_of_decodeWord {w : InstrWord} {i : Instr} (h : decodeWord w = .ok i) : i.WellFormed := by
  obtain ⟨_, ho⟩ := decodeWord_ok h
  rw [Instr.wellFormed_iff, ho, operandOf_toNat]
  exact Nat.mod_lt _ (Nat.two_pow_pos _)

/-- Everything a step can do: the effect of a well-formed instruction and the next `PC`, an error of that instruction, or the
error of a word that is none. -/
theorem step_next {s t : State} (h : step s = .next t) :
    s.Running ∧
    ((∃ i u, i.WellFormed ∧ s.fetch = .ok i ∧ t = u.advance ∧ Effect s i u) ∨
     (∃ i e, s.fetch = .ok i ∧ t = s.raise e ∧ Raised s i e) ∨
     (∃ b0 b1 b2 b3 b4 rest, s.imem.drop (5 * s.pc) = b0 :: b1 :: b2 :: b3 :: b4 :: rest ∧
       classify (opcOf (wordOfBytes b0 b1 b2 b3 b4)) = none ∧
       t = s.raise (.unknownOpcode (wordOfBytes b0 b1 b2 b3 b4)))) := by
  have hr := running_of_step h
  refine ⟨hr, ?_⟩
  rcases hr.fetch_cases with ⟨i, hf, w, hw⟩ | ⟨b0, b1, b2, b3, b4, rest, hb, hf, hc⟩
  · rw [step_of_fetch_ok hr hf] at h
    rcases exec_next h with ⟨u, ht, hu⟩ | ⟨e, ht, he⟩
    · exact .inl ⟨i, u, wellFormed_of_decodeWord hw, hf, ht, hu⟩
    · exact .inr (.inl ⟨i, e, hf, ht, he⟩)
  · rw [step_of_fetch_unknown hr hf] at h
    cases h
    exact .inr (.inr ⟨b0, b1, b2, b3, b4, rest, hb, hc, rfl⟩)

/-! ## The word placed at `PC` is the one the next step runs -/

theorem placeWord_split (blob : List Byte) (i : Nat) (w : InstrWord) :
    ∃ pre post : List Byte, placeWord blob i w = pre ++ (bytesOfWord w ++ post) ∧ pre.length = 5 * i ∧
      post.length % 5 = 0 := by
  refine ⟨blob.take (5 * i) ++ List.replicate (5 * i - (blob.take (5 * i)).length) 0,
    (blob.drop (5 * i + 5)).take ((blob.drop (5 * i + 5)).length / 5 * 5), ?_, ?_, ?_⟩
  · simp only [placeWord, List.append_assoc]
  · simp only [List.length_append, List.length_take, List.length_replicate]; omega
  · simp only [List.length_take, List.length_drop]; omega

/-- After `placeNext` the machine is Running and fetches exactly the placed word. -/
theorem State.placeNext_fetch (s : State) (w : InstrWord) :
    (s.placeNext w).Running ∧ (s.placeNext w).fetch = decodeWord w := by
  obtain ⟨pre, post, h, hpre, hpost⟩ := placeWord_split s.imem s.pc w
  constructor
  · refine (State.running_iff _).mpr ⟨rfl, s.pc + 1 + post.length / 5, State.progWords_eq_some.mpr ?_, ?_⟩
    · rw [State.placeNext_imem, h]
      simp only [List.length_append, bytesOfWord_length, hpre]
      omega
    · rw [State.placeNext_pc]; omega
  · rw [State.fetch_eq, State.fetchBytes, State.placeNext_imem, State.placeNext_pc, h, ← hpre, List.drop_left,
      decode_bytesOfWord]
    cases decodeWord w <;> rfl

/-- The step after `withFetchWord` is `exec` of the instruction the word decodes to. -/
theorem step_withFetchWord (s : State) (nbits w : Nat) {i : Instr}
    (h : decodeWord (BitVec.ofNat 40 (w % 2 ^ nbits)) = .ok i) :
    step (s.withFetchWord nbits w) = exec i (s.withFetchWord nbits w) := by
  obtain ⟨hr, hf⟩ := s.placeNext_fetch (BitVec.ofNat 40 (w % 2 ^ nbits))
  exact step_of_fetch_ok hr (hf.trans h)

end Sys2Proof.Machine
end

