-- ==== Sys2Proof/Laws/Run.lean ====
section
/-! SUPPORT. Runs of several steps. -/

namespace Sys2Proof.Machine

theorem run_zero (s : State) : runFor 0 s = .next s := rfl

theorem run_succ_of_step {s t : State} (h : step s = .next t) (k : Nat) :
    runFor (k + 1) s = runFor k t := by
  have h' : Sys2Proof.core.step s = .next t := h
  simp only [runFor, Host.Core.run, h']
  rfl

theorem run_succ_next {s t : State} {k : Nat} (h : runFor (k + 1) s = .next t) :
    ∃ u, step s = .next u ∧ runFor k u = .next t := by
  simp only [runFor, Host.Core.run] at h
  split at h
  · next u hu => exact ⟨u, hu, h⟩
  · cases h
  · cases h

/-- A run of `k + 1` steps is a run of `k` and one more step. -/
theorem run_succ_last {s t : State} {k : Nat} (h : runFor (k + 1) s = .next t) :
    ∃ u, runFor k s = .next u ∧ step u = .next t := by
  induction k generalizing s with
  | zero =>
    obtain ⟨u, hu, ht⟩ := run_succ_next h
    rw [run_zero] at ht
    cases ht
    exact ⟨s, rfl, hu⟩
  | succ k ih =>
    obtain ⟨u, hu, ht⟩ := run_succ_next h
    obtain ⟨v, hv, hs⟩ := ih ht
    exact ⟨v, by rw [run_succ_of_step hu, hv], hs⟩

/-- What holds of a state and is kept by every step holds along every run. -/
theorem run_induction {P : State → Prop} (hstep : ∀ s t, P s → step s = .next t → P t) {s t : State} (k : Nat)
    (hs : P s) (h : runFor k s = .next t) : P t := by
  induction k generalizing s with
  | zero => rw [run_zero] at h; cases h; exact hs
  | succ k ih =>
    obtain ⟨u, hu, ht⟩ := run_succ_next h
    exact ih (hstep s u hs hu) ht

/-- Every step adds 1 to `PC` and leaves the status registers, or raises an error (41_sequencer.md R141). -/
theorem step_progress {s t : State} (h : step s = .next t) :
    s.cause = 0 ∧ ((t.cause = 0 ∧ t.pc = s.pc + 1) ∨ ∃ e, e.code ≠ 1 ∧ t = s.raise e) := by
  obtain ⟨hr, hcases⟩ := step_next h
  have hc := (s.running_iff.mp hr).1
  refine ⟨hc, ?_⟩
  rcases hcases with ⟨i, u, _, _, rfl, hu⟩ | ⟨i, e, _, rfl, he⟩ | ⟨_, _, _, _, _, _, _, _, rfl⟩
  · obtain ⟨h1, h2, _⟩ := hu.frame
    exact .inl ⟨by rw [State.advance_cause, h2, hc], by rw [State.advance_pc, h1]⟩
  · exact .inr ⟨e, by cases he <;> simp [MachineError.code], rfl⟩
  · exact .inr ⟨_, by simp [MachineError.code], rfl⟩

/-- No step changes the inputs of the run. -/
theorem step_inputs {s t : State} (h : step s = .next t) : SameInputs s t := by
  obtain ⟨_, ⟨i, u, _, _, rfl, hu⟩ | ⟨i, e, _, rfl, _⟩ | ⟨_, _, _, _, _, _, _, _, rfl⟩⟩ := step_next h
  · obtain ⟨_, _, _, _, h1, h2, h3⟩ := hu.frame
    exact ⟨h1, h2, h3⟩
  · exact ⟨rfl, rfl, rfl⟩
  · exact ⟨rfl, rfl, rfl⟩

end Sys2Proof.Machine
end

