-- ==== Sys2Proof/Tests/Slice0.lean ====
section
/-! SUPPORT. Tests: expected results are those of spec/95_test_vectors.md (S, V-ENC, V-DEC, V-EXE, V-ERR, P) or are worked out
by hand from the rule named. Then, for every statement with hypotheses, a concrete case that meets them. -/

namespace Sys2Proof.Tests

open Sys2Proof.Machine

/-! ## WellFormed: each check refuses an ill-formed term -/

theorem test_wellFormed_refuses_wide_load : ¬ (Instr.load 0x8000000).WellFormed := by decide
theorem test_wellFormed_refuses_wide_read : ¬ (Instr.read 2048).WellFormed := by decide
theorem test_wellFormed_accepts_largest :
    (Instr.load 134217727).WellFormed ∧ (Instr.read 2047).WellFormed ∧ Instr.write.WellFormed ∧
    (Instr.eq 4294967295).WellFormed := by decide

/-! ## Decode: words written out bit by bit (R84 to R87), and V-DEC -/

theorem test_decode_load_bits : -- R84: x*7, i*27 = 9, 100001
    decodeWord 0b0000000_000000000000000000000001001_100001 = .ok (.load 9) := by decide
theorem test_decode_read_bits : -- R85: x*23, o*11 = 4, 011000
    decodeWord 0b00000000000000000000000_00000000100_011000 = .ok (.read 4) := by decide
theorem test_decode_write_bits : -- R86: x*34, 001101
    decodeWord 0b0000000000000000000000000000000000_001101 = .ok .write := by decide
theorem test_decode_eq_bits : -- R87: x*2, a*32 = 10, 110110
    decodeWord 0b00_00000000000000000000000000001010_110110 = .ok (.eq 10) := by decide
theorem test_decode_mixed_bytes : -- V-DEC
    decode [0x21, 0x43, 0x65, 0x87, 0xA9] = .ok (.load 102601996, []) ∧
    decode [0x58, 0x43, 0x65, 0x87, 0xA9] = .ok (.read 1293, []) ∧
    decode [0x8D, 0x43, 0x65, 0x87, 0xA9] = .ok (.write, []) ∧
    decode [0xB6, 0x43, 0x65, 0x87, 0xA9, 0x07] = .ok (.eq 2786956558, [0x07]) := by decide
theorem test_decode_first_ignored_bit : -- R117 (c)
    decodeWord 0x0200000021 = .ok (.load 0) ∧ decodeWord 0x0000020018 = .ok (.read 0) ∧
    decodeWord 0x4000000036 = .ok (.eq 0) ∧ decodeWord 0x000000004D = .ok .write := by decide
theorem test_decode_illegal_neighbours : -- R117 (e)
    decodeWord 12 = .error (.unknownOpcode 12) ∧ decodeWord 25 = .error (.unknownOpcode 25) ∧
    decodeWord 34 = .error (.unknownOpcode 34) ∧ decodeWord 55 = .error (.unknownOpcode 55) := by decide
theorem test_decode_truncated : decode [0xE1, 0x00, 0x00, 0x00] = .error .truncated := by decide

/-! ## Encode: V-ENC -/

theorem test_encode_boundaries : -- R126
    encodeBytes .load 134217727 = .ok [0xE1, 0xFF, 0xFF, 0xFF, 0x01] ∧
    encodeBytes .load 134217728 = .error (.operandRange .load 134217728) ∧
    encodeBytes .read 2047 = .ok [0xD8, 0xFF, 0x01, 0x00, 0x00] ∧
    encodeBytes .read 2048 = .error (.operandRange .read 2048) ∧
    encodeBytes .eq 4294967295 = .ok [0xF6, 0xFF, 0xFF, 0xFF, 0x3F] ∧
    encodeBytes .eq 4294967296 = .error (.operandRange .eq 4294967296) ∧
    encodeBytes .write 1099511627776 = .ok [0x0D, 0x00, 0x00, 0x00, 0x00] := by decide
theorem test_encode_load_44739242 : encode (.load 44739242) = .ok [0xA1, 0xAA, 0xAA, 0xAA, 0x00] := by decide

/-! ## One step of each instruction -/

/-- A state with a stack (top first), a data memory, a `MEM_SIZE` and a `STACK_DEPTH`; `PC` is 0 and no blob is placed. -/
def small (stk : List Word) (dmem : Memory) (memSize : Nat) (depth : StackDepth) : State :=
  { State.boot memSize depth [] with stk := stk, dmem := dmem }

/-- The next state of the step that runs the word `w` in `s` passes a check. -/
def stepPasses (s : State) (w : Nat) (check : State → Bool) : Bool :=
  match step (s.withFetchWord 40 w) with
  | .next t => check t
  | .fault _ => false
  | .refused _ => false

theorem test_load_largest : -- X2
    stepPasses (small [1] [] 16 .unbounded) 0x01FFFFFFE1
      (fun t => decide (t.stk = [134217727, 1] ∧ t.pc = 1 ∧ t.dmem = [])) = true := by decide
theorem test_load_overflow : -- E15: LOAD 3, STACK_DEPTH = 2
    stepPasses (small [2, 1] [] 16 (.bounded 1)) 0x00000000E1
      (fun t => decide (t.stk = [2, 1] ∧ t.pc = 0 ∧ t.cause = 5 ∧ t.tval = 2)) = true := by decide
theorem test_read_keeps_base : -- S3: MEM_SIZE = 10, READ 4
    stepPasses (small [5] [(9, 42)] 10 .unbounded) 0x0000000118
      (fun t => decide (t.stk = [42, 5] ∧ t.pc = 1 ∧ t.dmem = [(9, 42)])) = true := by decide
theorem test_read_sum_does_not_wrap : -- E8: READ 1
    stepPasses (small [4294967295] [] 16 .unbounded) 0x0000000058
      (fun t => decide (t.stk = [4294967295] ∧ t.cause = 4 ∧ t.tval = 4294967296)) = true := by decide
theorem test_write_overwrites : -- X8
    stepPasses (small [123456, 15, 8] [(15, 1)] 16 .unbounded) 0x000000000D
      (fun t => decide (t.stk = [8] ∧ t.dmem = [(15, 123456)] ∧ t.pc = 1)) = true := by decide
theorem test_write_out_of_bounds : -- E9
    stepPasses (small [1, 16] [] 16 .unbounded) 0x000000000D
      (fun t => decide (t.stk = [1, 16] ∧ t.dmem = [] ∧ t.pc = 0 ∧ t.cause = 4 ∧ t.tval = 16)) = true := by decide
theorem test_eq_compares_all_bits : -- X15: EQ 3, over a cell that held 1
    stepPasses (small [2147483647, 4294967295, 3] [(3, 1)] 16 .unbounded) 0x00000000F6
      (fun t => decide (t.stk = [3] ∧ t.dmem = [] ∧ t.pc = 1)) = true := by decide
theorem test_eq_underflow_first : -- E12: EQ 100 on an empty stack
    stepPasses (small [] [] 16 .unbounded) 0x0000001936
      (fun t => decide (t.cause = 3 ∧ t.tval = 0 ∧ t.pc = 0)) = true := by decide
theorem test_unknown_opcode : -- E13
    stepPasses (small [7] [] 16 .unbounded) 0x0000000022
      (fun t => decide (t.cause = 2 ∧ t.tval = 0x22 ∧ t.stk = [7] ∧ t.pc = 0)) = true := by decide

/-! ## Reset and the host -/

theorem test_blob_of_length_7 : -- P6
    let s := State.boot 16 .unbounded [0xE1, 0x00, 0x00, 0x00, 0x00, 0x61, 0x02]
    s.runState = .haltedOnError ∧ s.cause = 1 ∧ s.tval = 2 ∧ s.pc = 0 := by decide
theorem test_stack_notation : -- `[3, 99]` has 99 on top: entry 0 is 3, entry 1 is 99
    (small [99, 3] [] 16 .unbounded).stkEntry 0 = some 3 ∧ (small [99, 3] [] 16 .unbounded).stkEntry 1 = some 99 ∧
    (small [99, 3] [] 16 .unbounded).stkEntry 2 = none := by decide
theorem test_readOut_is_clipped : -- R243
    (small [] [(3, 9)] 4 .unbounded).readOut 2 9 = .ok [(2, 0), (3, 9)] ∧
    (small [] [] 4 .unbounded).readOut 4 9 = .ok [] ∧
    (small [] [] 4 .unbounded).readOut 3 2 = .error .invalidRange := by decide
theorem test_assemble : -- R100, R102, V-ENC
    assemble [⟨['L', 'o', 'a', 'd'], some 9⟩, ⟨['w', 'r', 'i', 't', 'e'], some 7⟩, ⟨['E', 'Q'], none⟩] =
      .ok [0x61, 0x02, 0, 0, 0, 0x0D, 0, 0, 0, 0, 0x36, 0, 0, 0, 0] := by decide
theorem test_assemble_range : assemble [⟨['e', 'q'], some 1⟩, ⟨['r', 'e', 'a', 'd'], some 2048⟩] =
    .error (.operandRange 1 .read 2048) := by decide
theorem test_assemble_mnemonic :
    assemble [⟨['n', 'o', 'p'], none⟩] = .error (.unknownMnemonic ['n', 'o', 'p']) := by decide

/-! ## Witnesses: the hypotheses of the statements can be met -/

/-- The blob of program P1 (95_test_vectors.md). -/
def blobP1 : List Byte :=
  [0xE1, 0, 0, 0, 0, 0x61, 0x02, 0, 0, 0, 0x0D, 0, 0, 0, 0, 0xE1, 0, 0, 0, 0, 0x18, 0, 0, 0, 0]

/-- P1 before its third instruction, WRITE. -/
def beforeWrite : State := { State.boot 16 .unbounded blobP1 with pc := 2, stk := [9, 3] }

/-- P1 after its third instruction. -/
def afterWrite : State := { State.boot 16 .unbounded blobP1 with pc := 3, dmem := [(3, 9)] }

/-- P4's blob up to the failing READ (95_test_vectors.md). -/
def blobP4 : List Byte :=
  [0xA1, 0, 0, 0, 0, 0x61, 0x13, 0, 0, 0, 0x0D, 0, 0, 0, 0, 0x21, 0x05, 0, 0, 0, 0x18, 0, 0, 0, 0]

/-- P4 in the state before its failing READ. -/
def beforeP4Error : State := { State.boot 16 .unbounded blobP4 with pc := 4, stk := [20], dmem := [(2, 77)] }

/-- P4 halted on its error. -/
def afterP4Error : State := { beforeP4Error with cause := 4, epc := 4, tval := 20 }

theorem beforeWrite_invariant : RunInvariant beforeWrite where
  parameters := by decide
  sp_le_depth := by intro d h; exact absurd h (by simp [beforeWrite, StackDepth.entries])
  pc_le := fun _ => ⟨5, by decide, by decide⟩
  structural := fun h => absurd h (by decide)
  failed := fun h => absurd rfl h
  no_error := fun _ => ⟨rfl, by decide⟩
  cause_le := by decide
  sp_le_pc := by decide
  stk_small := by simp [beforeWrite]
  cells_small := fun a => by simp [beforeWrite, State.memRead_def]
  dmem_wf := by decide
  dmem_bounds := by decide

/-- A large memory and the same state, for R181 (c). -/
theorem beforeWriteLarge_invariant : RunInvariant { beforeWrite with memSize := 2 ^ 27 } :=
  { beforeWrite_invariant with parameters := by decide, dmem_bounds := by decide }

theorem step_beforeWrite : step beforeWrite = .next afterWrite := by
  have hf : beforeWrite.fetch = .ok .write := by decide
  have hr : beforeWrite.Running := by decide
  rw [step_of_fetch_ok hr hf]
  rfl

theorem step_beforeP4Error : step beforeP4Error = .next afterP4Error := by
  have hf : beforeP4Error.fetch = .ok (.read 0) := by decide
  have hr : beforeP4Error.Running := by decide
  rw [step_of_fetch_ok hr hf]
  rfl

theorem witness_IgnoredBitsAreNotRead :
    opcOf 0x0000020018 = Kind.read.opcode ∧ opcOf 0x0000000018 = Kind.read.opcode ∧
    (fieldOf 0x0000020018).toNat % 2 ^ Kind.read.width = (fieldOf 0x0000000018).toNat % 2 ^ Kind.read.width := by decide
theorem witness_OperandIsFieldMaskedToWidth : (2047 : BitVec 34).toNat < 2 ^ Kind.read.width := by decide
theorem witness_DecodedInstructionIsWellFormed :
    decode [0xCD, 0xFF, 0xFF, 0xFF, 0xFF, 0x01] = .ok (.write, [0x01]) := by decide
theorem witness_EncodeRefusesExactlyTooWide :
    Kind.eq ≠ .write ∧ encodeOperand .eq 4294967295 = .ok 0x3FFFFFFFF6 := by decide
theorem witness_EncodedWordIsCanonical : encodeOperand .load 134217727 = .ok 0x01FFFFFFE1 := by decide
theorem witness_DecodeEncodeRoundTrip : (Instr.load 134217727).WellFormed := by decide
theorem witness_EncodeDecodeClearsIgnoredBits :
    decodeWord 0xFFFFFFFFE1 = .ok (.load 134217727) ∧ noncanonical .load 0xFFFFFFFFE1 = true ∧
    decodeWord 0x01FFFFFFE1 = .ok (.load 134217727) ∧ noncanonical .load 0x01FFFFFFE1 = false := by decide
theorem witness_IllFormedBlobIsRefusedAtReset : ([0xE1, 0, 0, 0, 0, 0x61, 0x02] : List Byte).length % 5 ≠ 0 := by decide
theorem witness_ResetMeetsRunInvariant : 1 ≤ (1 : Nat) ∧ (1 : Nat) ≤ 2 ^ 32 := by decide
theorem witness_StepExecutesDecodedInstruction :
    beforeWrite.cause = 0 ∧ beforeWrite.imem.length = 5 * 5 ∧ beforeWrite.pc < 5 ∧
    decode (beforeWrite.imem.drop (5 * beforeWrite.pc)) = .ok (.write, [0xE1, 0, 0, 0, 0, 0x18, 0, 0, 0, 0]) := by decide
theorem witness_UnknownOpcodeIsRecorded :
    let s := State.boot 16 .unbounded [0x22, 0, 0, 0, 0]
    s.cause = 0 ∧ s.imem.length = 5 * 1 ∧ s.pc < 1 ∧ s.imem.drop (5 * s.pc) = [0x22, 0, 0, 0, 0] ∧
    ((0x22 : Byte).toNat % 64 ≠ 33 ∧ (0x22 : Byte).toNat % 64 ≠ 24 ∧ (0x22 : Byte).toNat % 64 ≠ 13 ∧
      (0x22 : Byte).toNat % 64 ≠ 54) := by decide
theorem witness_HaltedStateHasNoStep :
    afterP4Error.cause ≠ 0 ∧ (State.boot 16 .unbounded []).cause = 0 ∧
    (State.boot 16 .unbounded []).imem.length = 5 * (State.boot 16 .unbounded []).pc := by decide
theorem witness_RunStateIsReadOffCauseAndPc : RunInvariant beforeWrite ∧ step beforeWrite = .next afterWrite :=
  ⟨beforeWrite_invariant, step_beforeWrite⟩
theorem witness_PcAdvancesByOneOrStays :
    step beforeWrite = .next afterWrite ∧ step beforeP4Error = .next afterP4Error ∧ afterP4Error.cause ≠ 0 ∧
    exec .write beforeWrite = .next afterWrite :=
  ⟨step_beforeWrite, step_beforeP4Error, by decide, rfl⟩
theorem witness_ErrorsArePrecise_outOfBounds : step beforeP4Error = .next afterP4Error ∧ afterP4Error.cause ≠ 0 :=
  ⟨step_beforeP4Error, by decide⟩
theorem witness_ErrorsArePrecise_unknownOpcode : ∃ t, step (State.boot 16 .unbounded [0x22, 0, 0, 0, 0]) = .next t ∧
    t.cause = 2 := ⟨_, rfl, by decide⟩
theorem witness_ErrorsArePrecise_underflow : ∃ t, step (State.boot 16 .unbounded [0x0D, 0, 0, 0, 0]) = .next t ∧
    t.cause = 3 := ⟨_, rfl, by decide⟩
theorem witness_ErrorsArePrecise_overflow :
    ∃ t, step { State.boot 16 (.bounded 0) [0xE1, 0, 0, 0, 0] with stk := [1] } = .next t ∧ t.cause = 5 ∧
      (small [1] [] 16 (.bounded 0)).sp < 2 ^ 40 := ⟨_, rfl, by decide, by decide⟩
theorem witness_StepKeepsRunInputs : step beforeWrite = .next afterWrite := step_beforeWrite
theorem witness_StepKeepsRunInvariant : RunInvariant beforeWrite ∧ step beforeWrite = .next afterWrite :=
  ⟨beforeWrite_invariant, step_beforeWrite⟩
theorem witness_ReachableStatesMeetRunInvariant :
    1 ≤ (16 : Nat) ∧ (16 : Nat) ≤ 2 ^ 32 ∧ ∃ t, runFor 5 (State.boot 16 .unbounded blobP1) = .next t ∧ t.stk = [9, 3] :=
  ⟨by decide, by decide, _, rfl, by decide⟩
theorem witness_RunEndsWithinProgramWords :
    beforeWrite.Running ∧ beforeWrite.cause = 0 ∧ beforeWrite.progWords = some 5 ∧ beforeWrite.pc ≤ 5 ∧
    step beforeWrite = .next afterWrite :=
  ⟨by decide, by decide, by decide, by decide, step_beforeWrite⟩
theorem witness_PcCountsCompletedInstructions :
    beforeWrite.cause = 0 ∧ runFor 1 beforeWrite = .next afterWrite ∧ afterWrite.cause = 0 :=
  ⟨by decide, (run_succ_of_step step_beforeWrite 0).trans rfl, by decide⟩
theorem witness_ErrorHaltKeepsEarlierEffects : blobP4.length % 5 = 0 ∧
    ∃ t, runFor 5 (State.boot 16 .unbounded blobP4) = .next t ∧ t.cause ≠ 0 := ⟨by decide, _, rfl, by decide⟩
theorem witness_LoadPushesConstant :
    (small [2, 1] [] 16 (.bounded 2)).stackDepth.entries ≠ some (small [2, 1] [] 16 (.bounded 2)).sp := by decide
theorem witness_LoadOnFullStackOverflows :
    (small [2, 1] [] 16 (.bounded 1)).stackDepth.entries = some (small [2, 1] [] 16 (.bounded 1)).sp ∧
    (small [2, 1] [] 16 (.bounded 1)).sp < 2 ^ 40 := by decide
theorem witness_ReadPushesCellAndKeepsBase : -- the last cell of the memory
    let s := small [10] [(15, 8)] 16 .unbounded
    s.stk = 10 :: [] ∧ (10 : Word).toNat + (5 : Word).toNat < s.memSize ∧ s.stackDepth.entries ≠ some s.sp := by decide
theorem witness_ReadErrorsInOrder :
    (small [] [] 16 .unbounded).sp = 0 ∧
    ((small [10] [] 16 .unbounded).stk = 10 :: [] ∧
      (small [10] [] 16 .unbounded).memSize ≤ (10 : Word).toNat + (6 : Word).toNat) ∧
    ((small [2, 1] [] 16 (.bounded 1)).stk = 2 :: [1] ∧
      (2 : Word).toNat + (13 : Word).toNat < (small [2, 1] [] 16 (.bounded 1)).memSize ∧
      (small [2, 1] [] 16 (.bounded 1)).stackDepth.entries = some (small [2, 1] [] 16 (.bounded 1)).sp ∧
      (small [2, 1] [] 16 (.bounded 1)).sp < 2 ^ 40) := by decide
theorem witness_WriteStoresTopAtAddressBelow :
    let s := small [123456, 15, 8] [(15, 1)] 16 .unbounded
    s.dmem.wf = true ∧ s.stk = 123456 :: 15 :: [8] ∧ (15 : Word).toNat < s.memSize := by decide
theorem witness_WriteErrorsInOrder :
    (small [99] [] 16 .unbounded).sp < 2 ∧ (small [1, 16] [] 16 .unbounded).stk = 1 :: 16 :: [] ∧
    (small [1, 16] [] 16 .unbounded).memSize ≤ (16 : Word).toNat := by decide
theorem witness_EqStoresVerdictAtOperand :
    let s := small [7, 7] [(3, 1)] 16 .unbounded
    s.dmem.wf = true ∧ s.stk = 7 :: 7 :: [] ∧ (15 : Word).toNat < s.memSize := by decide
theorem witness_EqErrorsInOrder :
    (small [1] [] 16 .unbounded).sp < 2 ∧ 2 ≤ (small [1, 1] [] 16 .unbounded).sp ∧
    (small [1, 1] [] 16 .unbounded).memSize ≤ (16 : Word).toNat := by decide
theorem witness_OnlyTheStoredCellChanges :
    exec .write beforeWrite = .next afterWrite ∧ storedAddress .write beforeWrite ≠ some 4 := ⟨rfl, by decide⟩
theorem witness_StackEffectOfEachInstruction :
    exec .write beforeWrite = .next afterWrite ∧ afterWrite.pc = beforeWrite.pc + 1 ∧
    exec (.read 0) beforeP4Error = .next afterP4Error ∧ afterP4Error.pc = beforeP4Error.pc :=
  ⟨rfl, by decide, rfl, by decide⟩
theorem witness_StatusRegistersAreNotOperands : exec (.read 0) beforeP4Error = .next afterP4Error := rfl
theorem witness_InstructionsKeepMemoryCanonical :
    beforeWrite.dmem.wf = true ∧ exec .write beforeWrite = .next afterWrite := ⟨by decide, rfl⟩
theorem witness_EqualReadsMeanEqualMemories :
    Memory.wf [(3, 9)] = true ∧ Memory.wf (Memory.write [(2, 5), (3, 9)] 2 0) = true ∧
    ∀ a, Memory.read [(3, 9)] a = Memory.read (Memory.write [(2, 5), (3, 9)] 2 0) a :=
  ⟨by decide, by decide, fun _ => rfl⟩
theorem witness_ReadReturnsLastWrite :
    beforeWrite.dmem.wf = true ∧ beforeWrite.stk = 9 :: 3 :: [] ∧ (3 : Word).toNat < beforeWrite.memSize ∧
    exec .write beforeWrite = .next afterWrite ∧
    let u := { afterWrite with stk := [3] }
    u.dmem = afterWrite.dmem ∧ u.stk = 3 :: [] ∧ (3 : Word).toNat + (0 : Word).toNat < u.memSize ∧
    u.stackDepth.entries ≠ some u.sp := ⟨by decide, by decide, by decide, rfl, by decide⟩
theorem witness_DeepStackNeverOverflows :
    RunInvariant beforeWrite ∧ beforeWrite.progWords = some 5 ∧
    (∀ d, beforeWrite.stackDepth.entries = some d → 5 ≤ d) ∧ step beforeWrite = .next afterWrite :=
  ⟨beforeWrite_invariant, by decide, fun d h => absurd h (by simp [beforeWrite, StackDepth.entries]), step_beforeWrite⟩
theorem witness_ReachableAddressesAreSmall :
    RunInvariant { beforeWrite with memSize := 2 ^ 27 } ∧ ({ beforeWrite with memSize := 2 ^ 27 } : State).stk = 9 :: [3] ∧
    (2047 : Word).toNat < 2 ^ 11 ∧ 2 ^ 27 ≤ ({ beforeWrite with memSize := 2 ^ 27 } : State).memSize ∧
    ({ beforeWrite with memSize := 2 ^ 27 } : State).cause = 0 ∧
    exec .write { beforeWrite with memSize := 2 ^ 27 } = .next { afterWrite with memSize := 2 ^ 27 } :=
  ⟨beforeWriteLarge_invariant, by decide, by decide, by decide, by decide, rfl⟩
theorem witness_ErrorCodesAndDetails : (1099511627775 : Nat) < 2 ^ 40 := by decide
theorem witness_ReadOutListsTheClippedRange :
    afterP4Error.ended = true ∧ (2 : Int) ≤ 99 ∧ (0 : Int) ≤ 2 ∧ ((afterP4Error.memSize : Int) ≤ 16) := by decide
theorem witness_HostReadsOnlyAfterTheEnd : ¬ beforeWrite.Halted ∧ afterP4Error.Halted := by decide
theorem witness_MnemonicsIgnoreCase : kindOfMnemonic ['n', 'o', 'p'] = none := by decide
theorem witness_AssembledBlobDecodesToProgram :
    assemble [⟨['L', 'O', 'A', 'D'], some 3⟩, ⟨['w', 'r', 'i', 't', 'e'], some 7⟩] =
      .ok [0xE1, 0, 0, 0, 0, 0x0D, 0, 0, 0, 0] := by decide
theorem witness_AssemblyFailsAtTheFirstBadEntry :
    assemble [⟨['e', 'q'], some 1⟩, ⟨['l', 'o', 'a', 'd'], some 134217728⟩] =
      .error (.operandRange 1 .load 134217728) := by decide

/-! ## The host's question about the first step after reset -/

theorem test_first_step_after_reset :
    decodeTableWord 40 0x21 = some (.load 0) ∧ decodeTableWord 40 0x18 = some (.read 0) ∧
    decodeTableWord 40 0x0D = some .write ∧ decodeTableWord 40 0x36 = some (.eq 0) ∧
    stepPasses State.reset 0x21 (fun t => decide (t.stk = [0] ∧ t.pc = 1)) = true ∧
    stepPasses State.reset 0x18 (fun t => decide (t.cause = 3 ∧ t.pc = 0)) = true := by decide

end Sys2Proof.Tests
end

section
/-! PROOFS. Reset values, the run states and the program counter (10_state.md). -/

namespace Sys2Proof.Machine

/-! ## The run states -/

/-- Clause (b) of R41 leaves no state outside the three run states: with no error recorded, `PC` is below `PROG_WORDS` or
equal to it. -/
theorem RunInvariant.runState_ne_outsideEveryRun {s : State} (h : RunInvariant s) :
    s.runState ≠ .outsideEveryRun := by
  by_cases hc : s.cause = 0
  · obtain ⟨n, hn, hle⟩ := h.pc_le (by simp [hc])
    rcases Nat.lt_or_eq_of_le hle with hlt | rfl
    · have hr : s.runState = .running := s.running_iff.mpr ⟨hc, n, hn, hlt⟩
      simp [hr]
    · have hr : s.runState = .haltedNormally := s.haltedNormally_iff.mpr ⟨hc, hn⟩
      simp [hr]
  · have hr : s.runState = .haltedOnError := s.haltedOnError_iff.mpr hc
    simp [hr]

/-- Settles O21: the three definitions of R36 by case, and the invariant's bound on `PC` for the reachable states. -/
theorem runStateIsReadOffCauseAndPc : Obligations.RunStateIsReadOffCauseAndPc :=
  ⟨fun s => ⟨s.running_iff, s.haltedNormally_iff, s.haltedOnError_iff, fun _ => running_of_step⟩,
    fun _ => RunInvariant.runState_ne_outsideEveryRun⟩

/-! ## The program counter -/

/-- A step with no error adds 1 to `PC`; a step with an error leaves it and records it in `EPC`. -/
theorem step_pc {s t : State} (h : step s = .next t) :
    (t.cause = 0 ∧ t.pc = s.pc + 1) ∨ (t.cause ≠ 0 ∧ t.pc = s.pc ∧ t.epc = s.pc) := by
  obtain ⟨_, hok | ⟨e, _, rfl⟩⟩ := step_progress h
  · exact .inl hok
  · exact .inr ⟨e.code_ne_zero, rfl, rfl⟩

/-- An instruction begun with another `PC` completes with the same effect and the successor of that `PC`, or raises the same
error and leaves that `PC`. -/
theorem exec_with_pc (i : Instr) (s : State) (p : Nat) :
    (∃ u : State, exec i s = .next u.advance ∧ u.pc = s.pc ∧
      exec i { s with pc := p } = .next (State.advance { u with pc := p })) ∨
    (∃ e, exec i s = .next (s.raise e) ∧ exec i { s with pc := p } = .next (State.raise { s with pc := p } e)) := by
  rcases exec_withStatus i s p s.cause s.epc s.tval with ⟨u, hs, hu, hp⟩ | ⟨e, hs, _, hp⟩
  · obtain ⟨hpc, hcause, hepc, htval, _⟩ := hu.frame
    have hw : u.withStatus p s.cause s.epc s.tval = { u with pc := p } := by
      rw [← hcause, ← hepc, ← htval]; rfl
    exact .inl ⟨u, hs, hpc, by rw [← hw]; exact hp⟩
  · exact .inr ⟨e, hs, hp⟩

/-- Settles O22: `step_pc` for the step, `exec_with_pc` for the instruction begun with another `PC`. -/
theorem pcAdvancesByOneOrStays : Obligations.PcAdvancesByOneOrStays := by
  refine ⟨fun _ _ => step_pc, fun i s t p h => ?_⟩
  rcases exec_with_pc i s p with ⟨u, hs, hpc, hp⟩ | ⟨e, hs, hp⟩
  · obtain rfl : u.advance = t := by simpa [hs] using h
    refine ⟨_, hp, rfl, rfl, rfl, rfl, fun _ => rfl, fun hstay => ?_⟩
    rw [State.advance_pc, hpc] at hstay
    omega
  · obtain rfl : s.raise e = t := by simpa [hs] using h
    refine ⟨_, hp, rfl, rfl, rfl, rfl, fun hmove => ?_, fun _ => rfl⟩
    rw [State.raise_pc] at hmove
    omega

/-! ## Reset -/

/-- After reset `TVAL` is `PROG_BYTES mod 5`, whole (10_state.md R35, R39). -/
theorem State.boot_tval_toNat (n : Nat) (d : StackDepth) (blob : List Byte) :
    (State.boot n d blob).tval.toNat = blob.length % 5 := by
  rw [State.boot_tval, BitVec.toNat_ofNat]
  omega

/-- Settles O14: every field is `State.boot`'s own, and the length modulo 5 fits `TVAL`. -/
theorem resetValues : Obligations.ResetValues := by
  intro n d blob
  have htval : (State.boot n d blob).tval.toNat = if blob.length % 5 = 0 then 0 else blob.length % 5 := by
    rw [State.boot_tval_toNat]
    split <;> omega
  exact ⟨rfl, rfl, rfl, State.boot_memRead n d blob, State.boot_cause n d blob, rfl, htval, rfl, rfl⟩

end Sys2Proof.Machine
end

section
/-! PROOFS. The codec (40_codec.md): field extraction, classification, masking, the range check, the round trip. -/

namespace Sys2Proof

/-! ## The round trip -/

/-- A value that fits the declared width is packed as it stands, for WRITE too, whose only fitting value is the 0 it
always packs. -/
theorem encodeOperand_of_fits {k : Kind} {v : Nat} (hv : v < 2 ^ k.width) : encodeOperand k v = .ok (packWord k v) := by
  rcases encodeOperand_cases k v with ⟨rfl, hok⟩ | ⟨_, _, hok⟩ | ⟨_, hwide, _⟩
  · obtain rfl : v = 0 := Nat.lt_one_iff.mp hv
    exact hok
  · exact hok
  · exact absurd hv (Nat.not_lt.mpr hwide)

/-- A word decodes to an instruction exactly when it has the opcode of its kind and the field masked to the declared width
is its operand. -/
theorem decodeWord_ok_iff (w : InstrWord) (i : Instr) :
    decodeWord w = .ok i ↔ opcOf w = i.kind.opcode ∧ i.operand.toNat = (fieldOf w).toNat % 2 ^ i.kind.width := by
  have hmask : i.operand = operandOf i.kind (fieldOf w) ↔ i.operand.toNat = (fieldOf w).toNat % 2 ^ i.kind.width := by
    rw [← operandOf_toNat, BitVec.toNat_inj]
  rw [← hmask]
  exact ⟨decodeWord_ok, fun ⟨ho, hf⟩ => decodeWord_of_parts ho hf⟩

/-- Unpacking a packed operand that fits gives it back: the opcode's 6 bits and the field do not overlap. -/
theorem decodeWord_packWord {i : Instr} (hi : i.WellFormed) : decodeWord (packWord i.kind i.operand.toNat) = .ok i := by
  have hfits := i.wellFormed_iff.mp hi
  have hlt := Kind.lt_of_fits hfits
  refine (decodeWord_ok_iff _ _).mpr ⟨opcOf_packWord _ hlt, ?_⟩
  rw [fieldOf_packWord _ hlt, Nat.mod_eq_of_lt hfits]

theorem encodeWord_of_wellFormed {i : Instr} (hi : i.WellFormed) :
    encodeWord i = .ok (packWord i.kind i.operand.toNat) :=
  encodeOperand_of_fits (i.wellFormed_iff.mp hi)

/-- The bytes of an instruction are the bytes of its word. -/
theorem encode_of_encodeWord {i : Instr} {w : InstrWord} (h : encodeWord i = .ok w) : encode i = .ok (bytesOfWord w) :=
  congrArg (Except.map bytesOfWord) h

/-- The bytes of a word that decodes are read off the front of any list of bytes. -/
theorem decode_bytesOfWord_of_ok {w : InstrWord} {i : Instr} (h : decodeWord w = .ok i) (rest : List Byte) :
    decode (bytesOfWord w ++ rest) = .ok (i, rest) := by
  rw [decode_bytesOfWord, h]
  rfl

/-- `encode(WRITE, v)` is WRITE's one word, whatever `v` is (40_codec.md R123). -/
theorem encodeOperand_write (v : Nat) : encodeOperand .write v = .ok (packWord .write 0) :=
  if_pos rfl

/-- Settles O10: the word is the packed operand, `decodeWord_packWord` undoes it, and the bytes carry the word whole. -/
theorem decodeEncodeRoundTrip : Obligations.DecodeEncodeRoundTrip := by
  refine ⟨fun i rest hi => ?_, fun v => ?_⟩
  · have henc := encodeWord_of_wellFormed hi
    have hdec := decodeWord_packWord hi
    exact ⟨_, _, henc, hdec, encode_of_encodeWord henc, bytesOfWord_length _, decode_bytesOfWord_of_ok hdec rest⟩
  · exact ⟨_, encodeOperand_write v, decodeWord_packWord (i := .write) trivial⟩

/-! ## Masking and decoding -/

/-- Settles O3: masking is the remainder (`operandOf_toNat`), which leaves a field that fits as it is. -/
theorem operandIsFieldMaskedToWidth : Obligations.OperandIsFieldMaskedToWidth := by
  refine ⟨rfl, rfl, rfl, rfl, fun k f => ⟨operandOf_toNat k f, fun hfits => ?_⟩, by decide⟩
  rw [operandOf_toNat, Nat.mod_eq_of_lt hfits]

theorem decodeWord_error_iff (w : InstrWord) (e : DecodeError) :
    decodeWord w = .error e ↔ classify (opcOf w) = none ∧ e = .unknownOpcode w := by
  refine ⟨decodeWord_error, ?_⟩
  rintro ⟨hillegal, rfl⟩
  exact decodeWord_of_illegal hillegal

/-- Settles O4: the classification alone decides between the error and the masked field. -/
theorem decodeWordIsClassifyThenMask : Obligations.DecodeWordIsClassifyThenMask := by
  refine ⟨fun w e => ?_, decodeWord_ok_iff, by decide⟩
  rw [decodeWord_error_iff, classify_eq_none_iff]

/-! ## The range check -/

/-- The range check fails exactly for a kind other than WRITE and a value of `2^width` or more (40_codec.md R121 to R123). -/
theorem encodeOperand_error_iff (k : Kind) (v : Nat) (e : EncodeError) :
    encodeOperand k v = .error e ↔ e = .operandRange k v ∧ k ≠ .write ∧ 2 ^ k.width ≤ v := by
  rcases encodeOperand_cases k v with ⟨rfl, hans⟩ | ⟨_, hv, hans⟩ | ⟨hk, hv, hans⟩
  · simp [hans]
  · simp [hans, hv]
  · simp [hans, hk, hv, eq_comm]

/-- The bounds of the range check, kind by kind (40_codec.md R122). -/
theorem tooWide_iff (k : Kind) (v : Nat) :
    (k ≠ .write ∧ 2 ^ k.width ≤ v) ↔
      (k = .load ∧ 134217728 ≤ v) ∨ (k = .read ∧ 2048 ≤ v) ∨ (k = .eq ∧ 4294967296 ≤ v) := by
  cases k <;> simp [Kind.width]

/-- Settles O7: the failures are those of `tooWide_iff`, and a packed word holds its operand whole. -/
theorem encodeRefusesExactlyTooWide : Obligations.EncodeRefusesExactlyTooWide := by
  refine ⟨fun k v e => ?_, fun k v w hk hok => ?_⟩
  · rw [encodeOperand_error_iff, tooWide_iff]
  · obtain ⟨u, hfits, hsame, rfl⟩ := encodeOperand_ok hok
    obtain rfl := hsame hk
    exact packWord_toNat k (Kind.lt_of_fits hfits)

/-! ## Field extraction, classification and WRITE -/

/-- Settles O1: the low 6 bits are the remainder modulo `2^6`, the field the quotient. -/
theorem decoderSplitsWord : Obligations.DecoderSplitsWord := by
  refine ⟨fun w => ⟨?_, ?_⟩, by decide, by decide, by decide⟩
  · rw [opcOf_toNat]
    exact (Nat.and_two_pow_sub_one_eq_mod w.toNat 6).symm
  · rw [fieldOf_toNat, Nat.shiftRight_eq_div_pow]

/-- Settles O2: each kind's opcode classifies to it, `classify_eq_none_iff` names the rest, and they are counted. -/
theorem fourOpcodesAreLegal : Obligations.FourOpcodesAreLegal :=
  ⟨classify_opcode .load, classify_opcode .read, classify_opcode .write, classify_opcode .eq, classify_eq_none_iff,
    by decide⟩

/-- Settles O8: `encodeOperand_write`, with WRITE's word and its bytes computed. -/
theorem encodeOfWriteDiscardsOperand : Obligations.EncodeOfWriteDiscardsOperand := by
  intro v
  have hword : packWord .write 0 = 0x000000000D := by decide
  have hbytes : bytesOfWord 0x000000000D = [0x0D, 0x00, 0x00, 0x00, 0x00] := by decide
  have hok : encodeOperand .write v = .ok 0x000000000D := hword ▸ encodeOperand_write v
  refine ⟨hok, ?_⟩
  rw [encodeBytes, hok, ← hbytes]
  rfl

end Sys2Proof
end

section
/-! PROOFS. The sequencer (41_sequencer.md): which states have a step, and how a run ends. -/

namespace Sys2Proof.Machine

/-! ## Which states have a step -/

/-- Every Running state has a step: the fetched word is executed, or recorded as an illegal one (41_sequencer.md R141). -/
theorem State.Running.step_exists {s : State} (h : s.Running) : ∃ t, step s = .next t := by
  rcases h.fetch_cases with ⟨i, hf, _⟩ | ⟨_, _, _, _, _, _, _, hf, _⟩
  · rw [step_of_fetch_ok h hf]
    rcases exec_cases i s with ⟨u, hu, _⟩ | ⟨e, he, _⟩
    · exact ⟨_, hu⟩
    · exact ⟨_, he⟩
  · exact ⟨_, step_of_fetch_unknown h hf⟩

/-- A state that has ended, normally or on an error, has no next state (41_sequencer.md R142, R143). -/
theorem State.Halted.step_ne_next {s : State} (h : s.Halted) (t : State) : step s ≠ .next t := by
  intro ht
  have hr : s.runState = .running := running_of_step ht
  simp [State.Halted, hr] at h

/-- `PROG_WORDS` is the same after every step, since the blob is (41_sequencer.md R140). -/
theorem step_progWords {s t : State} (h : step s = .next t) : t.progWords = s.progWords := by
  obtain ⟨himem, _, _⟩ := step_inputs h
  rw [State.progWords, State.progBytes, himem]
  rfl

/-! ## The end of a run -/

theorem State.raise_haltedOnError (s : State) (e : MachineError) : (s.raise e).runState = .haltedOnError :=
  (State.haltedOnError_iff _).mpr e.code_ne_zero

theorem not_succeeded_of_haltedOnError {s : State} (h : s.runState = .haltedOnError) : ¬ s.Succeeded := by
  simp [h]

/-- With `r` words left and no error recorded, a run ends within `r` steps, and in exactly `r` if it ends normally. Each step
leaves one word less or ends the run on an error (41_sequencer.md R147). -/
theorem run_halts_of_words_left (r : Nat) {s : State} (hc : s.cause = 0) (hn : s.progWords = some (s.pc + r)) :
    ∃ k t, k ≤ r ∧ runFor k s = .next t ∧ t.Halted ∧ (t.Succeeded → k = r) := by
  induction r generalizing s with
  | zero => exact ⟨0, s, le_rfl, run_zero s, .inl (s.haltedNormally_iff.mpr ⟨hc, hn⟩), fun _ => rfl⟩
  | succ r ih =>
    have hr : s.Running := s.running_iff.mpr ⟨hc, _, hn, by omega⟩
    obtain ⟨u, hu⟩ := hr.step_exists
    obtain ⟨_, ⟨huc, hupc⟩ | ⟨e, _, rfl⟩⟩ := step_progress hu
    · have hun : u.progWords = some (u.pc + r) := by
        rw [step_progWords hu, hn, hupc, Nat.add_right_comm, Nat.add_assoc]
      obtain ⟨k, t, hk, ht, hhalt, hexact⟩ := ih huc hun
      exact ⟨k + 1, t, by omega, by rw [run_succ_of_step hu, ht], hhalt, fun hs => by rw [hexact hs]⟩
    · have herr := s.raise_haltedOnError e
      exact ⟨1, s.raise e, by omega, by rw [run_succ_of_step hu, run_zero], .inr herr,
        fun hs => absurd hs (not_succeeded_of_haltedOnError herr)⟩

/-- From reset with any blob a run ends within `PROG_WORDS` steps; an ill-formed blob has ended it at reset
(41_sequencer.md R147, 60_exceptions.md R191). -/
theorem run_halts_of_boot (m : Nat) (d : StackDepth) (blob : List Byte) :
    ∃ k t, k ≤ blob.length / 5 ∧ runFor k (State.boot m d blob) = .next t ∧ t.Halted ∧
      (t.Succeeded → 5 * k = blob.length) := by
  by_cases hb : blob.length % 5 = 0
  · have hn : (State.boot m d blob).progWords = some ((State.boot m d blob).pc + blob.length / 5) := by
      rw [State.progWords_eq_some, State.boot_imem, State.boot_pc]
      omega
    obtain ⟨k, t, hk, ht, hhalt, hexact⟩ := run_halts_of_words_left _ (by simp [hb]) hn
    exact ⟨k, t, hk, ht, hhalt, fun hs => by have := hexact hs; omega⟩
  · have herr : (State.boot m d blob).runState = .haltedOnError := (State.haltedOnError_iff _).mpr (by simp [hb])
    exact ⟨0, _, Nat.zero_le _, run_zero _, .inr herr, fun hs => absurd hs (not_succeeded_of_haltedOnError herr)⟩

/-- Settles O27: by induction on the words left (`run_halts_of_words_left`), at reset all of them. -/
theorem runEndsWithinProgramWords : Obligations.RunEndsWithinProgramWords := by
  refine ⟨fun s t h => ?_, fun _ => State.Running.step_exists, fun s n hc hn hle => ?_, run_halts_of_boot⟩
  · obtain ⟨_, ⟨_, hpc⟩ | ⟨e, _, rfl⟩⟩ := step_progress h
    · exact .inl hpc
    · exact .inr (s.raise_haltedOnError e)
  · exact run_halts_of_words_left (n - s.pc) hc (by rw [hn, Nat.add_sub_cancel' hle])

/-! ## The empty program -/

/-- Settles O16: 0 words and `PC` = 0 are the end of the program, where no step is left. -/
theorem emptyProgramHaltsNormally : Obligations.EmptyProgramHaltsNormally := by
  intro n d
  have hwords : (State.boot n d []).progWords = some 0 := State.progWords_eq_some.mpr rfl
  have hend : (State.boot n d []).runState = .haltedNormally := (State.haltedNormally_iff _).mpr ⟨rfl, hwords⟩
  exact ⟨hwords, hend, State.Halted.step_ne_next (.inl hend), State.boot_memRead n d [], rfl, rfl⟩

end Sys2Proof.Machine
end

section
/-! PROOFS. Exceptions (60_exceptions.md): the refusal of an ill-formed blob at reset. -/

namespace Sys2Proof.Machine

/-- R191: reset records `CAUSE` 1 for a blob that is not made of whole words. -/
theorem State.boot_cause_of_ill_formed (n : Nat) (d : StackDepth) {blob : List Byte} (hb : blob.length % 5 ≠ 0) :
    (State.boot n d blob).cause = 1 :=
  (State.boot_cause n d blob).trans (if_neg hb)

/-- Settles O15: reset records `CAUSE` 1, and a state with an error recorded is halted, so no step is left. -/
theorem illFormedBlobIsRefusedAtReset : Obligations.IllFormedBlobIsRefusedAtReset := by
  intro n d blob hb
  have hcause : (State.boot n d blob).cause = 1 := State.boot_cause_of_ill_formed n d hb
  have hhalt : (State.boot n d blob).runState = .haltedOnError :=
    (State.haltedOnError_iff _).mpr (by rw [hcause]; decide)
  exact ⟨hcause, rfl, State.boot_tval_toNat n d blob, State.boot_memRead n d blob, rfl, hhalt,
    State.Halted.step_ne_next (.inr hhalt)⟩

end Sys2Proof.Machine
end

section
/-! PROOFS. The invariant of the reachable states (10_state.md R41): reset meets it, every step keeps it. -/

namespace Sys2Proof.Machine

/-! ## What a completed instruction keeps -/

/-- EQ's verdict is 0 or 1. -/
theorem eqVerdict_toNat_le (a b : Word) : (eqVerdict a b).toNat ≤ 1 := by
  unfold eqVerdict
  split <;> decide

/-- Completing an instruction keeps the invariant: what concerns `PC` and the status registers holds of every Running state
that moves on, and the rest is asked of the new stack and memory. -/
theorem RunInvariant.of_completed {s : State} {stk : List Word} {dmem : Memory} (h : RunInvariant s) (hr : s.Running)
    (hdepth : ∀ d, s.stackDepth.entries = some d → stk.length ≤ d) (hsp : stk.length ≤ s.sp + 1)
    (hstk : ∀ v ∈ stk, v.toNat < 2 ^ 27) (hcells : ∀ a, (dmem.read a).toNat < 2 ^ 27) (hwf : dmem.wf = true)
    (hbounds : ∀ p ∈ dmem, p.1 < s.memSize) :
    RunInvariant (State.advance { s with stk := stk, dmem := dmem }) := by
  obtain ⟨hc, n, hn, hlt⟩ := s.running_iff.mp hr
  exact {
    parameters := h.parameters
    sp_le_depth := hdepth
    pc_le := fun _ => ⟨n, hn, hlt⟩
    structural := fun h1 => absurd (hc.symm.trans h1) (by decide)
    failed := fun h0 => absurd hc h0
    no_error := fun _ => h.no_error hc
    cause_le := h.cause_le
    sp_le_pc := hsp.trans (Nat.succ_le_succ h.sp_le_pc)
    stk_small := hstk
    cells_small := hcells
    dmem_wf := hwf
    dmem_bounds := hbounds }

/-- Pushing a word below 2^27 on a stack that is not full keeps the invariant. -/
theorem RunInvariant.of_push {s : State} {v : Word} (h : RunInvariant s) (hr : s.Running)
    (hroom : s.stackDepth.entries ≠ some s.sp) (hv : v.toNat < 2 ^ 27) :
    RunInvariant (State.advance { s with stk := v :: s.stk }) := by
  refine h.of_completed hr (fun d hd => ?_) le_rfl (fun w hw => ?_) h.cells_small h.dmem_wf h.dmem_bounds
  · have hne : s.sp ≠ d := fun heq => hroom (heq ▸ hd)
    exact Nat.lt_of_le_of_ne (h.sp_le_depth d hd) hne
  · rcases List.mem_cons.mp hw with rfl | hw
    · exact hv
    · exact h.stk_small w hw

/-- Popping two entries and storing a word below 2^27 in bounds keeps the invariant. -/
theorem RunInvariant.of_store {s : State} {b a : Word} {rest : List Word} {addr : Nat} {v : Word} (h : RunInvariant s)
    (hr : s.Running) (hs : s.stk = b :: a :: rest) (haddr : addr < s.memSize) (hv : v.toNat < 2 ^ 27) :
    RunInvariant (State.advance { s with stk := rest, dmem := s.dmem.write addr v }) := by
  have hsp : s.sp = rest.length + 2 := by rw [State.sp_def, hs]; rfl
  refine h.of_completed hr (fun d hd => ?_) (by omega) (fun w hw => ?_) (fun x => ?_) (Memory.wf_write h.dmem_wf addr v)
    (fun p hp => ?_)
  · have := h.sp_le_depth d hd
    omega
  · exact h.stk_small w (by rw [hs]; exact List.mem_cons_of_mem _ (List.mem_cons_of_mem _ hw))
  · rw [Memory.read_write h.dmem_wf]
    split
    · exact hv
    · exact h.cells_small x
  · rcases Memory.mem_write hp with rfl | hp
    · exact haddr
    · exact h.dmem_bounds p hp

/-- The effect of a well-formed instruction keeps the invariant: LOAD's operand has 27 bits, READ copies a cell, WRITE an
entry, EQ stores 0 or 1 (42_stack_memory_ops.md R181). -/
theorem RunInvariant.of_effect {s u : State} {i : Instr} (h : RunInvariant s) (hr : s.Running) (hi : i.WellFormed)
    (hu : Effect s i u) : RunInvariant u.advance := by
  cases hu with
  | load v hroom => exact h.of_push hr hroom hi
  | read k base rest _ _ hroom => exact h.of_push hr hroom (h.cells_small _)
  | write value under rest hs hb => exact h.of_store hr hs hb (h.stk_small value (by simp [hs]))
  | eq m b a rest hs hb =>
    exact h.of_store hr hs hb (Nat.lt_of_le_of_lt (eqVerdict_toNat_le a b) (by decide))

/-! ## What an error keeps -/

/-- The codes of the errors are 1 to 5 (60_exceptions.md R190). -/
theorem MachineError.code_toNat_le (e : MachineError) : e.code.toNat ≤ 5 := by
  cases e <;> simp [MachineError.code]

/-- An instruction raises StackUnderflow, OutOfBounds or StackOverflow only. -/
theorem Raised.code {s : State} {i : Instr} {e : MachineError} (h : Raised s i e) :
    e.code = 3 ∨ e.code = 4 ∨ e.code = 5 := by
  cases h with
  | underflow _ => exact .inl rfl
  | bounds _ _ _ _ => exact .inr (.inl rfl)
  | overflow _ => exact .inr (.inr rfl)

/-- Raising any error of the step on a Running state keeps the invariant. -/
theorem RunInvariant.of_raise {s : State} {e : MachineError} (h : RunInvariant s) (hr : s.Running) (he : e.code ≠ 1) :
    RunInvariant (s.raise e) := by
  obtain ⟨_, hwords⟩ := s.running_iff.mp hr
  exact { h with
    pc_le := fun _ => hwords.imp fun _ ⟨hn, hlt⟩ => ⟨hn, hlt.le⟩
    structural := fun h1 => absurd h1 he
    failed := fun _ _ => ⟨rfl, hwords⟩
    no_error := fun h0 => absurd h0 e.code_ne_zero
    cause_le := e.code_toNat_le }

/-- Settles O25: the three things a step can do (`step_next`) are an effect, an instruction's error, and a word that is no
instruction. -/
theorem stepKeepsRunInvariant : Obligations.StepKeepsRunInvariant := by
  intro s t h hst
  obtain ⟨hr, ⟨i, u, hi, _, rfl, hu⟩ | ⟨i, e, _, rfl, he⟩ | ⟨_, _, _, _, _, _, _, _, rfl⟩⟩ := step_next hst
  · exact h.of_effect hr hi hu
  · exact h.of_raise hr (by rcases he.code with hc | hc | hc <;> simp [hc])
  · exact h.of_raise hr (by simp [MachineError.code])

/-! ## The reachable states -/

/-- Reset records no error exactly for a blob of whole words (10_state.md R39). -/
theorem State.boot_cause_eq_zero {n : Nat} {d : StackDepth} {blob : List Byte} :
    (State.boot n d blob).cause = 0 ↔ blob.length % 5 = 0 := by
  rw [State.boot_cause]
  split <;> simp_all

/-- Reset records `StructuralError` exactly for any other blob (60_exceptions.md R191). -/
theorem State.boot_cause_eq_one {n : Nat} {d : StackDepth} {blob : List Byte} :
    (State.boot n d blob).cause = 1 ↔ blob.length % 5 ≠ 0 := by
  rw [State.boot_cause]
  split <;> simp_all

/-- After reset with parameters in range the invariant holds: stack and memory are empty, and `CAUSE` is 0 or 1 as the blob is
well formed or not (10_state.md R39). -/
theorem RunInvariant.of_boot {n : Nat} (hlo : 1 ≤ n) (hhi : n ≤ 2 ^ 32) (d : StackDepth) (blob : List Byte) :
    RunInvariant (State.boot n d blob) where
  parameters := ⟨hlo, hhi⟩
  sp_le_depth := fun _ _ => Nat.zero_le _
  pc_le := fun h1 => by
    have hb : blob.length % 5 = 0 := not_not.mp (mt State.boot_cause_eq_one.mpr h1)
    exact ⟨blob.length / 5, State.progWords_eq_some.mpr (by rw [State.boot_imem]; omega), Nat.zero_le _⟩
  structural := fun h1 =>
    ⟨rfl, rfl, rfl, rfl, State.boot_tval_toNat n d blob, State.boot_cause_eq_one.mp h1⟩
  failed := fun h0 h1 => absurd (State.boot_cause_eq_one.mpr (mt State.boot_cause_eq_zero.mpr h0)) h1
  no_error := fun h0 => ⟨rfl, by rw [State.boot_tval, State.boot_cause_eq_zero.mp h0]; rfl⟩
  cause_le := by rw [State.boot_cause]; split <;> decide
  sp_le_pc := Nat.le_refl 0
  stk_small := by simp
  cells_small := fun a => by rw [State.boot_memRead]; decide
  dmem_wf := rfl
  dmem_bounds := by simp

/-- Settles O17: `RunInvariant.of_boot`, `State.reset` being a reset whose `MEM_SIZE` is in range. -/
theorem resetMeetsRunInvariant : Obligations.ResetMeetsRunInvariant :=
  ⟨fun _ d blob hlo hhi => .of_boot hlo hhi d blob, .of_boot Config.memSize_bounds.1 Config.memSize_bounds.2 _ _⟩

/-- Settles O26: `resetMeetsRunInvariant`, and `stepKeepsRunInvariant` along the run. -/
theorem reachableStatesMeetRunInvariant : Obligations.ReachableStatesMeetRunInvariant :=
  fun n d blob k _ hlo hhi hrun =>
    run_induction stepKeepsRunInvariant k (resetMeetsRunInvariant.1 n d blob hlo hhi) hrun

end Sys2Proof.Machine
end

section
/-! PROOFS. The assembler (30_encoding.md R100 to R105). -/

namespace Sys2Proof.Machine

/-! ## Assembly entry by entry -/

theorem assembleFrom_nil (index : Nat) : assembleFrom index [] = .ok [] := rfl

/-- A program assembles exactly when its first entry and the rest do; its blob is theirs, one after the other. -/
theorem assembleFrom_cons_ok_iff (index : Nat) (e : SourceEntry) (es : List SourceEntry) (blob : List Byte) :
    assembleFrom index (e :: es) = .ok blob ↔
      ∃ bytes rest, assembleEntry index e = .ok bytes ∧ assembleFrom (index + 1) es = .ok rest ∧ blob = bytes ++ rest := by
  rw [assembleFrom]
  rcases assembleEntry index e with err | bytes
  · simp
  · rcases assembleFrom (index + 1) es with err | rest
    · simp
    · simp [eq_comm]

/-- A program fails exactly when its first entry fails, or that assembles and the rest fails. -/
theorem assembleFrom_cons_error_iff (index : Nat) (e : SourceEntry) (es : List SourceEntry) (err : AssemblyError) :
    assembleFrom index (e :: es) = .error err ↔
      assembleEntry index e = .error err ∨
        ((∃ bytes, assembleEntry index e = .ok bytes) ∧ assembleFrom (index + 1) es = .error err) := by
  rw [assembleFrom]
  rcases assembleEntry index e with err | bytes
  · simp
  · rcases assembleFrom (index + 1) es with err | rest <;> simp

/-! ## The blob decodes to the program -/

/-- At the front of the bytes stands a well-formed instruction of the entry's mnemonic with the entry's operand, 0 when it is
missing (30_encoding.md R102). -/
def HoldsEntry (e : SourceEntry) (bs : List Byte) : Prop :=
  ∃ i, decode bs = .ok (i, bs.drop 5) ∧ i.WellFormed ∧ kindOfMnemonic e.op = some i.kind ∧
    (i.kind ≠ .write → i.operand.toNat = e.arg.getD 0)

/-- An assembled entry is five bytes, and whatever follows them, they hold the entry. -/
theorem assembleEntry_ok_holdsEntry {index : Nat} {e : SourceEntry} {bytes : List Byte}
    (h : assembleEntry index e = .ok bytes) :
    bytes.length = 5 ∧ ∀ rest, HoldsEntry e (bytes ++ rest) := by
  obtain ⟨i, w, rfl, hw, hkind, hoperand⟩ := assembleEntry_ok h
  refine ⟨bytesOfWord_length w, fun rest => ⟨i, ?_, wellFormed_of_decodeWord hw, hkind, hoperand⟩⟩
  rw [decode_bytesOfWord_of_ok hw, List.drop_left' (bytesOfWord_length w)]

/-- An assembled program has five bytes an entry and holds each entry at its place. -/
theorem assembleFrom_ok_holdsEntry {index : Nat} {es : List SourceEntry} {blob : List Byte}
    (h : assembleFrom index es = .ok blob) :
    blob.length = 5 * es.length ∧ ∀ (j : Nat) (e : SourceEntry), es[j]? = some e → HoldsEntry e (blob.drop (5 * j)) := by
  induction es generalizing index blob with
  | nil =>
    cases h
    exact ⟨rfl, fun j e he => by simp at he⟩
  | cons e es ih =>
    obtain ⟨bytes, rest, hentry, hrest, rfl⟩ := (assembleFrom_cons_ok_iff index e es blob).mp h
    obtain ⟨hlen, hholds⟩ := assembleEntry_ok_holdsEntry hentry
    obtain ⟨hlen', hholds'⟩ := ih hrest
    refine ⟨by rw [List.length_append, List.length_cons, hlen, hlen']; omega, fun j e' he' => ?_⟩
    cases j with
    | zero =>
      obtain rfl : e = e' := by simpa using he'
      exact hholds rest
    | succ j =>
      rw [Nat.mul_succ, Nat.add_comm, ← List.drop_drop, List.drop_left' hlen]
      exact hholds' j e' (by simpa using he')

/-- Settles O51: by induction on the program (`assembleFrom_ok_holdsEntry`). -/
theorem assembledBlobDecodesToProgram : Obligations.AssembledBlobDecodesToProgram := by
  intro es blob h
  obtain ⟨hlen, hholds⟩ := assembleFrom_ok_holdsEntry h
  refine ⟨hlen, fun j e he => ?_⟩
  obtain ⟨i, hdecode, hi⟩ := hholds j e he
  exact ⟨i, by rw [hdecode, List.drop_drop], hi⟩

/-! ## The first entry that fails -/

/-- Entry `j` of a program numbered from `index` on is the first that fails, with this error. -/
def FirstFailure (index : Nat) (es : List SourceEntry) (err : AssemblyError) (j : Nat) : Prop :=
  ∃ e, es[j]? = some e ∧ assembleEntry (index + j) e = .error err ∧
    ∀ (j' : Nat) (e' : SourceEntry), j' < j → es[j']? = some e' → ∃ bytes, assembleEntry (index + j') e' = .ok bytes

theorem firstFailure_cons_zero (index : Nat) (e : SourceEntry) (es : List SourceEntry) (err : AssemblyError) :
    FirstFailure index (e :: es) err 0 ↔ assembleEntry index e = .error err := by
  simp [FirstFailure]

/-- A later entry is the first that fails when the first entry assembles and it is the first of the rest. -/
theorem firstFailure_cons_succ (index : Nat) (e : SourceEntry) (es : List SourceEntry) (err : AssemblyError) (j : Nat) :
    FirstFailure index (e :: es) err (j + 1) ↔
      (∃ bytes, assembleEntry index e = .ok bytes) ∧ FirstFailure (index + 1) es err j := by
  have hshift : ∀ n, index + (n + 1) = index + 1 + n := fun n => by omega
  constructor
  · rintro ⟨e', he', hfail, hbefore⟩
    refine ⟨hbefore 0 e (Nat.succ_pos j) rfl, e', he', by rw [← hshift]; exact hfail, fun n e'' hn he'' => ?_⟩
    rw [← hshift]
    exact hbefore (n + 1) e'' (Nat.succ_lt_succ hn) he''
  · rintro ⟨hfirst, e', he', hfail, hbefore⟩
    refine ⟨e', he', by rw [hshift]; exact hfail, fun n e'' hn he'' => ?_⟩
    cases n with
    | zero =>
      obtain rfl : e = e'' := by simpa using he''
      exact hfirst
    | succ n =>
      rw [hshift]
      exact hbefore n e'' (Nat.lt_of_succ_lt_succ hn) he''

theorem assembleFrom_error_iff (index : Nat) (es : List SourceEntry) (err : AssemblyError) :
    assembleFrom index es = .error err ↔ ∃ j, FirstFailure index es err j := by
  induction es generalizing index with
  | nil => simp [assembleFrom_nil, FirstFailure]
  | cons e es ih =>
    rw [assembleFrom_cons_error_iff, ih, ← Nat.or_exists_add_one (p := FirstFailure index (e :: es) err)]
    simp only [firstFailure_cons_zero, firstFailure_cons_succ, exists_and_left]

/-- Settles O52: by induction on the program (`assembleFrom_error_iff`). -/
theorem assemblyFailsAtTheFirstBadEntry : Obligations.AssemblyFailsAtTheFirstBadEntry := by
  intro es err
  have h := assembleFrom_error_iff 0 es err
  simpa only [assemble, FirstFailure, Nat.zero_add] using h

/-! ## Mnemonics -/

/-- The mnemonic of each kind, in lower case (30_encoding.md R100). -/
def mnemonicOf : Kind → List Char
  | .load => ['l', 'o', 'a', 'd']
  | .read => ['r', 'e', 'a', 'd']
  | .write => ['w', 'r', 'i', 't', 'e']
  | .eq => ['e', 'q']

/-- A token names a kind exactly when its lower case is that kind's mnemonic. -/
theorem kindOfMnemonic_eq_some_iff (t : List Char) (k : Kind) :
    kindOfMnemonic t = some k ↔ t.map lowerLetter = mnemonicOf k := by
  unfold kindOfMnemonic
  constructor
  · intro h
    simp only at h
    split_ifs at h with h1 h2 h3 h4 <;> cases h <;> assumption
  · intro h
    rw [h]
    cases k <;> rfl

/-- Lower case is a fold: a token and its lower case name the same kind. -/
theorem kindOfMnemonic_map_lowerLetter (t : List Char) : kindOfMnemonic (t.map lowerLetter) = kindOfMnemonic t := by
  have hfold : (t.map lowerLetter).map lowerLetter = t.map lowerLetter := by
    rw [List.map_map]
    exact List.map_congr_left fun c _ => lowerLetter_lowerLetter c
  rw [kindOfMnemonic, hfold]
  rfl

/-- Settles O50: `kindOfMnemonic_eq_some_iff` kind by kind; an entry of no mnemonic is refused before its operand is read. -/
theorem mnemonicsIgnoreCase : Obligations.MnemonicsIgnoreCase := by
  refine ⟨⟨rfl, rfl, rfl, rfl⟩, kindOfMnemonic_map_lowerLetter, fun t k => ?_, fun index e h => ?_⟩
  · rw [kindOfMnemonic_eq_some_iff]
    cases k <;> simp [mnemonicOf]
  · rw [assembleEntry, h]

end Sys2Proof.Machine
end

section
/-! PROOFS. The codec (40_codec.md): ignored bits, canonical words, the byte order. -/

namespace Sys2Proof

/-! ## Ignored bits -/

/-- A word with the opcode of a kind decodes to that kind's instruction of the masked field (40_codec.md R116). -/
theorem decodeWord_of_opcode {w : InstrWord} {k : Kind} (h : opcOf w = k.opcode) :
    decodeWord w = .ok (k.instr (operandOf k (fieldOf w))) := by
  rw [decodeWord, h, classify_opcode]

/-- Fields that agree below the declared width give the same operand (40_codec.md R115). -/
theorem operandOf_congr {k : Kind} {f f' : BitVec 34} (h : f.toNat % 2 ^ k.width = f'.toNat % 2 ^ k.width) :
    operandOf k f = operandOf k f' :=
  BitVec.eq_of_toNat_eq (by rw [operandOf_toNat, operandOf_toNat, h])

/-- Settles O5: the opcode and the masked field are all the decoder reads. -/
theorem ignoredBitsAreNotRead : Obligations.IgnoredBitsAreNotRead := by
  intro w w' k ho ho' hf
  have hw := decodeWord_of_opcode ho
  refine ⟨?_, _, hw, Kind.instr_kind _ _⟩
  rw [hw, decodeWord_of_opcode ho', operandOf_congr hf]

/-- Settles O6: the five bytes are a word, and what a word decodes to is well formed. -/
theorem decodedInstructionIsWellFormed : Obligations.DecodedInstructionIsWellFormed := by
  intro bs rest i h
  obtain ⟨_, _, _, _, _, rfl, hw⟩ := decode_ok h
  exact ⟨Machine.wellFormed_of_decodeWord hw, rfl⟩

/-! ## Canonical words -/

/-- A packed operand that fits leaves every ignored bit 0 (30_encoding.md R93). -/
theorem noncanonical_packWord {k : Kind} {v : Nat} (hv : v < 2 ^ k.width) : noncanonical k (packWord k v) = false := by
  rw [noncanonical_eq_false_iff, fieldOf_packWord k (Kind.lt_of_fits hv)]
  exact hv

/-- Settles O9: an encoded word is a packed operand of at most 32 bits above the 6 of the opcode. -/
theorem encodedWordIsCanonical : Obligations.EncodedWordIsCanonical := by
  intro k v w h
  obtain ⟨u, hu, _, rfl⟩ := encodeOperand_ok h
  have hlt := Kind.lt_of_fits hu
  refine ⟨opcOf_packWord k hlt, noncanonical_packWord hu, ?_⟩
  have hopc := k.opcode.isLt
  rw [packWord_toNat k hlt]
  omega

/-- A canonical word is its kind's packed field. -/
theorem packWord_fieldOf_eq_iff {k : Kind} {w : InstrWord} (ho : opcOf w = k.opcode) :
    packWord k ((fieldOf w).toNat % 2 ^ k.width) = w ↔ noncanonical k w = false := by
  have hmod : (fieldOf w).toNat % 2 ^ k.width < 2 ^ k.width := Nat.mod_lt _ (Nat.two_pow_pos _)
  have hlt := Kind.lt_of_fits hmod
  constructor
  · intro h
    rw [← h]
    exact noncanonical_packWord hmod
  · intro h
    have hfits := (noncanonical_eq_false_iff k w).mp h
    refine word_eq_of_parts ((opcOf_packWord k hlt).trans ho.symm) (BitVec.eq_of_toNat_eq ?_)
    rw [fieldOf_packWord k hlt, Nat.mod_eq_of_lt hfits]

/-- Settles O11: the instruction encodes to its packed masked field, which is the word exactly when that is canonical
(`packWord_fieldOf_eq_iff`). -/
theorem encodeDecodeClearsIgnoredBits : Obligations.EncodeDecodeClearsIgnoredBits := by
  intro w i h
  obtain ⟨ho, hf⟩ := (decodeWord_ok_iff w i).mp h
  have hi := Machine.wellFormed_of_decodeWord h
  have hlt := Kind.lt_of_fits (i.wellFormed_iff.mp hi)
  have hcanonical := packWord_fieldOf_eq_iff ho
  rw [← hf] at hcanonical
  refine ⟨_, encodeWord_of_wellFormed hi, ?_, ?_, hcanonical.mpr, fun hnon heq => ?_⟩
  · rw [opcOf_packWord _ hlt, ho]
  · rw [fieldOf_packWord _ hlt, hf]
  · simp [hcanonical.mp heq] at hnon

/-! ## The byte order -/

/-- The bytes of the word of five bytes are those bytes: each is the word divided by its place, modulo 256
(40_codec.md R124). -/
theorem bytesOfWord_wordOfBytes (b0 b1 b2 b3 b4 : Byte) :
    bytesOfWord (wordOfBytes b0 b1 b2 b3 b4) = [b0, b1, b2, b3, b4] := by
  have hword := wordOfBytes_toNat b0 b1 b2 b3 b4
  have h0 := b0.isLt
  have h1 := b1.isLt
  have h2 := b2.isLt
  have h3 := b3.isLt
  simp only [bytesOfWord, List.cons.injEq, and_true]
  refine ⟨?_, ?_, ?_, ?_, ?_⟩ <;> apply BitVec.eq_of_toNat_eq <;>
    rw [BitVec.extractLsb'_toNat, hword, Nat.shiftRight_eq_div_pow] <;> omega

/-- Settles O12: `bytesOfWord_wordOfBytes` one way, `wordOfBytes_bytesOfWord` the other. -/
theorem wordBytesAreLittleEndian : Obligations.WordBytesAreLittleEndian :=
  ⟨fun b0 b1 b2 b3 b4 => ⟨wordOfBytes_toNat b0 b1 b2 b3 b4, bytesOfWord_wordOfBytes b0 b1 b2 b3 b4⟩,
    fun w => ⟨_, _, _, _, _, rfl, wordOfBytes_bytesOfWord w⟩⟩

/-- Settles O13: seven written words, each decoded by evaluation. -/
theorem writtenWordsDecode : Obligations.WrittenWordsDecode := by
  unfold Obligations.WrittenWordsDecode
  decide

end Sys2Proof
end

section
/-! PROOFS. The four instructions (42_stack_memory_ops.md): completion, and the errors in their order. -/

namespace Sys2Proof.Machine

/-! ## From the effect to the instruction -/

theorem exec_of_effect {i : Instr} {s u : State} (h : effectOf i s = .ok u) : exec i s = .next u.advance := by
  rw [exec_eq_finish, h, State.finish_ok]

theorem exec_of_error {i : Instr} {s : State} {e : MachineError} (h : effectOf i s = .error e) :
    exec i s = .next (s.raise e) := by
  rw [exec_eq_finish, h, State.finish_error]

/-- A number that fits `TVAL` is recorded whole (60_exceptions.md R193, R205). -/
theorem exec_of_stackUnderflow {i : Instr} {s : State} {n : Nat} (hn : n < 2 ^ 40)
    (h : effectOf i s = .error (.stackUnderflow n)) :
    exec i s = .next { s with cause := 3, epc := s.pc, tval := BitVec.ofNat 40 n } := by
  rw [exec_of_error h, ← tvalOfNat_eq hn]
  rfl

/-- An address that fits `TVAL` is recorded whole (60_exceptions.md R194, R205). -/
theorem exec_of_outOfBounds {i : Instr} {s : State} {n : Nat} (hn : n < 2 ^ 40)
    (h : effectOf i s = .error (.outOfBounds n)) :
    exec i s = .next { s with cause := 4, epc := s.pc, tval := BitVec.ofNat 40 n } := by
  rw [exec_of_error h, ← tvalOfNat_eq hn]
  rfl

/-- `StackOverflow` changes the status registers only, and records `SP` whole when it fits `TVAL` (60_exceptions.md R196). -/
theorem exec_of_stackOverflow {i : Instr} {s : State} (h : effectOf i s = .error (.stackOverflow s.sp)) :
    ∃ t, exec i s = .next t ∧ t = { s with cause := 5, epc := s.pc, tval := t.tval } ∧
      (s.sp < 2 ^ 40 → t.tval.toNat = s.sp) :=
  ⟨_, exec_of_error h, rfl, tvalOfNat_toNat⟩

/-! ## The operations on a stack of known shape -/

theorem State.push_of_room {s : State} (h : s.stackDepth.entries ≠ some s.sp) (v : Word) :
    s.push v = .ok { s with stk := v :: s.stk } := by
  rw [State.push_eq, if_neg h]

theorem State.push_of_full {s : State} (h : s.stackDepth.entries = some s.sp) (v : Word) :
    s.push v = .error (.stackOverflow s.sp) := by
  rw [State.push_eq, if_pos h]

theorem State.topTwo_of_cons {s : State} {b a : Word} {rest : List Word} (h : s.stk = b :: a :: rest) :
    s.topTwo = .ok (b, a) := by
  rw [State.topTwo, h]

/-- A stack of two entries or more has a top and an entry under it. -/
theorem State.exists_topTwo {s : State} (h : 2 ≤ s.sp) : ∃ b a rest, s.stk = b :: a :: rest := by
  rcases s.topTwo_cases with ⟨hlt, _⟩ | ⟨b, a, rest, hs, _⟩
  · omega
  · exact ⟨b, a, rest, hs⟩

/-! ## LOAD -/

/-- Settles O30: on a stack with room the push goes through. -/
theorem loadPushesConstant : Obligations.LoadPushesConstant :=
  fun v _ hroom => exec_of_effect (i := .load v) (State.push_of_room hroom v)

/-- Settles O31: on a full stack the push answers the error. -/
theorem loadOnFullStackOverflows : Obligations.LoadOnFullStackOverflows :=
  fun v _ hfull => exec_of_stackOverflow (i := .load v) (State.push_of_full hfull v)

/-! ## READ -/

theorem readEffect_of_empty {s : State} (h : s.sp = 0) (k : Word) : readEffect k s = .error (.stackUnderflow 0) := by
  rcases s.top_cases with ⟨_, _, ht⟩ | ⟨b, rest, hs, _⟩
  · rw [readEffect, ht]
    rfl
  · simp [State.sp, hs] at h

theorem readEffect_of_outOfBounds {s : State} {base : Word} {rest : List Word} (hs : s.stk = base :: rest) {k : Word}
    (h : s.memSize ≤ stackBaseAddress base k) : readEffect k s = .error (.outOfBounds (stackBaseAddress base k)) := by
  simp [readEffect, State.top, hs, bind, Except.bind, State.checkBounds_error h]

theorem readEffect_of_inBounds {s : State} {base : Word} {rest : List Word} (hs : s.stk = base :: rest) {k : Word}
    (h : stackBaseAddress base k < s.memSize) : readEffect k s = s.push (s.memRead (stackBaseAddress base k)) := by
  simp [readEffect, State.top, hs, bind, Except.bind, State.checkBounds_ok h]

/-- Settles O32: base and address pass their tests, and the push goes through. -/
theorem readPushesCellAndKeepsBase : Obligations.ReadPushesCellAndKeepsBase := by
  intro k base rest s hs hb hroom
  rw [← hs]
  exact exec_of_effect (i := .read k) ((readEffect_of_inBounds hs hb).trans (State.push_of_room hroom _))

/-- Settles O33: the tests in the order of R200, each reached when those before it pass. -/
theorem readErrorsInOrder : Obligations.ReadErrorsInOrder := by
  refine ⟨fun k s h => ?_, fun k base rest s hs hb => ⟨?_, ?_⟩, fun k base rest s hs hb hfull => ?_⟩
  · exact exec_of_stackUnderflow (i := .read k) (by decide) (readEffect_of_empty h k)
  · exact exec_of_outOfBounds (i := .read k) (stackBaseAddress_lt base k) (readEffect_of_outOfBounds hs hb)
  · rw [BitVec.toNat_ofNat]
    exact Nat.mod_eq_of_lt (stackBaseAddress_lt base k)
  · exact exec_of_stackOverflow (i := .read k) ((readEffect_of_inBounds hs hb).trans (State.push_of_full hfull _))

/-! ## WRITE and EQ -/

/-- What popping two entries and storing a cell leaves, when the instruction completes. -/
theorem State.store_completes {s : State} {b a : Word} {rest : List Word} (hwf : s.dmem.wf = true)
    (hs : s.stk = b :: a :: rest) (addr : Nat) (v : Word) :
    let t := (s.dropTwo.memWrite addr v).advance
    t.stk = rest ∧ t.pc = s.pc + 1 ∧ (∀ c, t.memRead c = if c = addr then v else s.memRead c) ∧
      SameStatus s t ∧ SameInputs s t :=
  ⟨by simp [hs], rfl, State.memRead_memWrite (s := s.dropTwo) hwf addr v, ⟨rfl, rfl, rfl⟩, ⟨rfl, rfl, rfl⟩⟩

theorem writeEffect_of_underflow {s : State} (h : s.sp < 2) : writeEffect s = .error (.stackUnderflow s.sp) := by
  rw [writeEffect, State.topTwo_error h]
  rfl

theorem writeEffect_of_outOfBounds {s : State} {value under : Word} {rest : List Word}
    (hs : s.stk = value :: under :: rest) (h : s.memSize ≤ stackAddress under) :
    writeEffect s = .error (.outOfBounds (stackAddress under)) := by
  simp [writeEffect, State.topTwo_of_cons hs, bind, Except.bind, State.checkBounds_error h]

theorem writeEffect_of_inBounds {s : State} {value under : Word} {rest : List Word}
    (hs : s.stk = value :: under :: rest) (h : stackAddress under < s.memSize) :
    writeEffect s = .ok (s.dropTwo.memWrite (stackAddress under) value) := by
  simp [writeEffect, State.topTwo_of_cons hs, bind, Except.bind, pure, Except.pure, State.checkBounds_ok h]

/-- WRITE of an address in bounds completes with the store. -/
theorem exec_write_of_inBounds {s : State} {value under : Word} {rest : List Word}
    (hs : s.stk = value :: under :: rest) (h : stackAddress under < s.memSize) :
    exec .write s = .next (s.dropTwo.memWrite (stackAddress under) value).advance :=
  exec_of_effect (i := .write) (writeEffect_of_inBounds hs h)

/-- Settles O34: the store of `exec_write_of_inBounds`. -/
theorem writeStoresTopAtAddressBelow : Obligations.WriteStoresTopAtAddressBelow :=
  fun value under _ _ hwf hs hb =>
    ⟨_, exec_write_of_inBounds hs hb, State.store_completes hwf hs (stackAddress under) value⟩

/-- Settles O35: the tests in the order of R200. -/
theorem writeErrorsInOrder : Obligations.WriteErrorsInOrder := by
  refine ⟨fun s h => ?_, fun value under rest s hs hb => ?_⟩
  · exact exec_of_stackUnderflow (i := .write) (by omega) (writeEffect_of_underflow h)
  · exact exec_of_outOfBounds (i := .write) (stackAddress_lt under) (writeEffect_of_outOfBounds hs hb)

theorem eqEffect_of_underflow {s : State} (h : s.sp < 2) (m : Word) : eqEffect m s = .error (.stackUnderflow s.sp) := by
  rw [eqEffect, State.topTwo_error h]
  rfl

theorem eqEffect_of_outOfBounds {s : State} {b a : Word} {rest : List Word} (hs : s.stk = b :: a :: rest) {m : Word}
    (h : s.memSize ≤ instructionAddress m) : eqEffect m s = .error (.outOfBounds (instructionAddress m)) := by
  simp [eqEffect, State.topTwo_of_cons hs, bind, Except.bind, State.checkBounds_error h]

theorem eqEffect_of_inBounds {s : State} {b a : Word} {rest : List Word} (hs : s.stk = b :: a :: rest) {m : Word}
    (h : instructionAddress m < s.memSize) :
    eqEffect m s = .ok (s.dropTwo.memWrite (instructionAddress m) (eqVerdict a b)) := by
  simp [eqEffect, State.topTwo_of_cons hs, bind, Except.bind, pure, Except.pure, State.checkBounds_ok h]

/-- Settles O36: EQ of an operand in bounds completes with the store of its verdict. -/
theorem eqStoresVerdictAtOperand : Obligations.EqStoresVerdictAtOperand :=
  fun m b a _ _ hwf hs hb =>
    ⟨_, exec_of_effect (i := .eq m) (eqEffect_of_inBounds hs hb), State.store_completes hwf hs (instructionAddress m) (eqVerdict a b)⟩

/-- Settles O37: the tests in the order of R200; the first does not look at the operand. -/
theorem eqErrorsInOrder : Obligations.EqErrorsInOrder := by
  refine ⟨fun m s h => ?_, fun m s h hb => ?_⟩
  · exact exec_of_stackUnderflow (i := .eq m) (by omega) (eqEffect_of_underflow h m)
  · obtain ⟨b, a, rest, hs⟩ := State.exists_topTwo h
    exact exec_of_outOfBounds (i := .eq m) (instructionAddress_lt m) (eqEffect_of_outOfBounds hs hb)

/-! ## Read after write -/

/-- Settles O44: the READ pushes the cell of the memory the WRITE left. -/
theorem readReturnsLastWrite : Obligations.ReadReturnsLastWrite := by
  intro s t u value under base k rest below hwf hs hb ht hdmem hu hbu hroom
  obtain ⟨t', ht', _, _, hread, _, _⟩ := writeStoresTopAtAddressBelow value under rest s hwf hs hb
  obtain rfl : t' = t := by simpa [ht] using ht'.symm
  refine ⟨_, readPushesCellAndKeepsBase k base below u hu hbu hroom, ?_⟩
  rw [← hread, State.memRead_def u, hdmem, State.memRead_def t']

end Sys2Proof.Machine
end

section
/-! PROOFS. Frames: what every instruction leaves unchanged, and what holds of all four (42_stack_memory_ops.md section 6). -/

namespace Sys2Proof.Machine

/-! ## The data memory -/

theorem storedAddress_write {s : State} {value under : Word} {rest : List Word} (hs : s.stk = value :: under :: rest) :
    storedAddress .write s = some (stackAddress under) := by
  rw [storedAddress, hs]

/-- An effect leaves every cell but the one it stores to (10_state.md R31). -/
theorem Effect.memRead_of_ne {s u : State} {i : Instr} (h : Effect s i u) {a : Nat} (ha : storedAddress i s ≠ some a) :
    u.memRead a = s.memRead a := by
  cases h with
  | load v _ => rfl
  | read k base rest _ _ _ => rfl
  | write value under rest hs _ =>
    rw [storedAddress_write hs] at ha
    exact Memory.read_write_ne _ _ fun heq => ha (congrArg some heq.symm)
  | eq m b c rest _ _ => exact Memory.read_write_ne _ _ fun heq => ha (congrArg some heq.symm)

/-- Settles O38: `Effect.memRead_of_ne`; an error leaves the whole memory. -/
theorem onlyTheStoredCellChanges : Obligations.OnlyTheStoredCellChanges := by
  intro i s t h a ha
  rcases exec_next h with ⟨u, rfl, hu⟩ | ⟨e, rfl, _⟩
  · exact hu.memRead_of_ne ha
  · rfl

/-- Settles O42: `Memory.wf_write` for the two instructions that store. -/
theorem instructionsKeepMemoryCanonical : Obligations.InstructionsKeepMemoryCanonical := by
  intro i s t hwf h
  rcases exec_next h with ⟨u, rfl, hu⟩ | ⟨e, rfl, _⟩
  · cases hu with
    | load v _ => exact hwf
    | read k base rest _ _ _ => exact hwf
    | write value under rest _ _ => exact Memory.wf_write hwf _ _
    | eq m b a rest _ _ => exact Memory.wf_write hwf _ _
  · exact hwf

/-! ### Canonical memories are determined by their cells -/

theorem Memory.wfFrom_cons_iff (lo a : Nat) (v : Word) (m : Memory) :
    Memory.wfFrom lo ((a, v) :: m) = true ↔ lo ≤ a ∧ v ≠ 0 ∧ Memory.wfFrom (a + 1) m = true := by
  simp [Memory.wfFrom, and_assoc]

/-- A canonical memory that reads 0 everywhere lists nothing. -/
theorem Memory.eq_nil_of_read_zero {lo : Nat} {m : Memory} (h : Memory.wfFrom lo m = true) (hz : ∀ a, m.read a = 0) :
    m = [] := by
  cases m with
  | nil => rfl
  | cons p m =>
    obtain ⟨a, v⟩ := p
    obtain ⟨_, hv, _⟩ := (Memory.wfFrom_cons_iff lo a v m).mp h
    exact absurd (by simpa [Memory.read] using hz a) hv

/-- The first address of a canonical memory is the least that does not read 0, so it is not above that of a memory that reads
alike. -/
theorem Memory.head_le_of_read_eq {lo a b : Nat} {v w : Word} {m m' : Memory}
    (h : Memory.wfFrom lo ((a, v) :: m) = true) (h' : Memory.wfFrom lo ((b, w) :: m') = true)
    (hread : Memory.read ((a, v) :: m) b = Memory.read ((b, w) :: m') b) : a ≤ b := by
  obtain ⟨_, hw, _⟩ := (Memory.wfFrom_cons_iff lo b w m').mp h'
  obtain ⟨_, hv, hm⟩ := (Memory.wfFrom_cons_iff lo a v m).mp h
  by_contra hlt
  have hfrom : Memory.wfFrom a ((a, v) :: m) = true := (Memory.wfFrom_cons_iff a a v m).mpr ⟨le_rfl, hv, hm⟩
  rw [Memory.read_below hfrom (by omega)] at hread
  exact hw (by simpa [Memory.read] using hread.symm)

theorem Memory.eq_of_read_eq {lo : Nat} {m m' : Memory} (h : Memory.wfFrom lo m = true)
    (h' : Memory.wfFrom lo m' = true) (hread : ∀ a, m.read a = m'.read a) : m = m' := by
  induction m generalizing lo m' with
  | nil => exact (Memory.eq_nil_of_read_zero h' fun a => (hread a).symm).symm
  | cons p m ih =>
    obtain ⟨a, v⟩ := p
    cases m' with
    | nil => exact Memory.eq_nil_of_read_zero h hread
    | cons q m' =>
      obtain ⟨b, w⟩ := q
      obtain rfl : a = b := Nat.le_antisymm (Memory.head_le_of_read_eq h h' (hread b))
        (Memory.head_le_of_read_eq h' h (hread a).symm)
      obtain rfl : v = w := by simpa [Memory.read] using hread a
      obtain ⟨_, _, hm⟩ := (Memory.wfFrom_cons_iff lo a v m).mp h
      obtain ⟨_, _, hm'⟩ := (Memory.wfFrom_cons_iff lo a v m').mp h'
      refine congrArg _ (ih hm hm' fun c => ?_)
      by_cases hc : c = a
      · rw [hc, Memory.read_below hm (Nat.lt_succ_self a), Memory.read_below hm' (Nat.lt_succ_self a)]
      · simpa [Memory.read, hc] using hread c

/-- Settles O43: the first cells agree, being the least that are not 0, and so on down the lists. -/
theorem equalReadsMeanEqualMemories : Obligations.EqualReadsMeanEqualMemories :=
  fun _ _ => Memory.eq_of_read_eq

/-! ## The stack and the status registers -/

/-- Settles O39: `PC` tells an effect from an error, and each effect says what it needs, pops and pushes. -/
theorem stackEffectOfEachInstruction : Obligations.StackEffectOfEachInstruction := by
  intro i s t h
  rcases exec_next h with ⟨u, rfl, hu⟩ | ⟨e, rfl, _⟩
  · obtain ⟨hpc, _⟩ := hu.frame
    refine ⟨fun hstay => ?_, fun _ => ?_⟩
    · rw [State.advance_pc, hpc] at hstay
      omega
    · cases hu with
      | load v hroom => exact ⟨fun _ hi => by cases hi; exact ⟨hroom, rfl⟩, nofun, nofun, nofun⟩
      | read k base rest hs _ hroom =>
        exact ⟨nofun, fun _ _ => ⟨by simp [State.sp, hs], hroom, _, rfl⟩, nofun, nofun⟩
      | write value under rest hs _ => exact ⟨nofun, nofun, fun _ => by simp [State.sp, hs], nofun⟩
      | eq m b a rest hs _ => exact ⟨nofun, nofun, nofun, fun _ _ => by simp [State.sp, hs]⟩
  · refine ⟨fun _ => ⟨rfl, rfl⟩, fun hmove => ?_⟩
    rw [State.raise_pc] at hmove
    omega

/-- Settles O40: `Effect.frame` for the completion, `Raised.code` for the error. -/
theorem statusChangesOnlyOnError : Obligations.StatusChangesOnlyOnError := by
  intro i s
  rcases exec_cases i s with ⟨u, h, hu⟩ | ⟨e, h, he⟩
  · obtain ⟨hpc, hcause, hepc, htval, himem, hmem, hdepth⟩ := hu.frame
    exact ⟨_, h, ⟨himem, hmem, hdepth⟩, .inl ⟨congrArg (· + 1) hpc, hcause, hepc, htval⟩⟩
  · exact ⟨_, h, ⟨rfl, rfl, rfl⟩, .inr ⟨rfl, rfl, he.code⟩⟩

/-- Settles O41: `exec_withStatus` with the `PC` left as it is. -/
theorem statusRegistersAreNotOperands : Obligations.StatusRegistersAreNotOperands := by
  intro i s t c e v h
  rcases exec_withStatus i s s.pc c e v with ⟨u, hs, hu, hstatus⟩ | ⟨x, hs, _, hstatus⟩
  · obtain rfl : u.advance = t := by simpa [hs] using h
    obtain ⟨hpc, _⟩ := hu.frame
    exact ⟨_, hstatus, congrArg (· + 1) hpc.symm, rfl, rfl⟩
  · obtain rfl : s.raise x = t := by simpa [hs] using h
    exact ⟨_, hstatus, rfl, rfl, rfl⟩

end Sys2Proof.Machine
end

section
/-! PROOFS. The step (41_sequencer.md) and its errors (60_exceptions.md): what is fetched, what is recorded, what stays. -/

namespace Sys2Proof.Machine

/-! ## What the step runs -/

/-- A state with no error and a word at `PC` is Running (10_state.md R36). -/
theorem State.running_of_word {s : State} {n : Nat} (hc : s.cause = 0) (hlen : s.imem.length = 5 * n) (hpc : s.pc < n) :
    s.Running :=
  s.running_iff.mpr ⟨hc, n, State.progWords_eq_some.mpr hlen, hpc⟩

/-- Settles O18: the fetch decodes the bytes at `PC`. -/
theorem stepExecutesDecodedInstruction : Obligations.StepExecutesDecodedInstruction := by
  intro s n i rest hc hlen hpc hdecode
  have hfetch : s.fetch = .ok i := by
    rw [s.fetch_eq, State.fetchBytes, hdecode]
    rfl
  exact step_of_fetch_ok (State.running_of_word hc hlen hpc) hfetch

/-- The opcode is the low 6 bits of the first byte (30_encoding.md R82, 40_codec.md R110). -/
theorem opcOf_wordOfBytes_toNat (b0 b1 b2 b3 b4 : Byte) : (opcOf (wordOfBytes b0 b1 b2 b3 b4)).toNat = b0.toNat % 64 := by
  rw [opcOf_toNat, wordOfBytes_toNat]
  omega

/-- Settles O19: the opcode is none of the four, so the word is rejected and recorded whole. -/
theorem unknownOpcodeIsRecorded : Obligations.UnknownOpcodeIsRecorded := by
  intro s n b0 b1 b2 b3 b4 rest hc hlen hpc hbytes hopc
  have hillegal : classify (opcOf (wordOfBytes b0 b1 b2 b3 b4)) = none := by
    rw [classify_eq_none_iff]
    simp only [ne_eq, ← BitVec.toNat_inj, opcOf_wordOfBytes_toNat]
    exact hopc
  have hfetch := (State.fetch_of_bytes hbytes).trans (decodeWord_of_illegal hillegal)
  exact step_of_fetch_unknown (State.running_of_word hc hlen hpc) hfetch

theorem step_of_haltedOnError {s : State} (h : s.runState = .haltedOnError) : step s = .fault .haltedOnError := by
  rw [step, h]

theorem step_of_haltedNormally {s : State} (h : s.runState = .haltedNormally) : step s = .fault .haltedNormally := by
  rw [step, h]

/-- Settles O20: `CAUSE` and `PC` say which of the two halted states it is. -/
theorem haltedStateHasNoStep : Obligations.HaltedStateHasNoStep :=
  fun s => ⟨fun hc => step_of_haltedOnError (s.haltedOnError_iff.mpr hc),
    fun hc hlen => step_of_haltedNormally (s.haltedNormally_iff.mpr ⟨hc, State.progWords_eq_some.mpr hlen⟩)⟩

/-- Settles O24: `step_inputs`; `PROG_BYTES` and `PROG_WORDS` are the blob's. -/
theorem stepKeepsRunInputs : Obligations.StepKeepsRunInputs := by
  intro s t h
  have hinputs := step_inputs h
  exact ⟨hinputs, congrArg List.length hinputs.1, step_progWords h⟩

/-! ## What an error records -/

/-- Settles O47: each detail is the word, or a number that fits `TVAL`. -/
theorem errorCodesAndDetails : Obligations.ErrorCodesAndDetails := by
  intro n hn
  have hdetail := tvalOfNat_toNat hn
  exact ⟨⟨rfl, hdetail⟩, fun _ => ⟨rfl, rfl⟩, ⟨rfl, hdetail⟩, ⟨rfl, hdetail⟩, ⟨rfl, hdetail⟩⟩

/-- Settles O23: a step that leaves an error is a `raise`, of an instruction's error or of the illegal word. -/
theorem errorsArePrecise : Obligations.ErrorsArePrecise := by
  intro s t h hc
  obtain ⟨hr, ⟨i, u, _, _, rfl, hu⟩ | ⟨i, e, hf, rfl, he⟩ | ⟨b0, b1, b2, b3, b4, rest, hb, hclass, rfl⟩⟩ := step_next h
  · obtain ⟨_, hcause, _⟩ := hu.frame
    exact absurd (hcause.trans (s.running_iff.mp hr).1) hc
  · refine ⟨rfl, s.raise_haltedOnError e, ?_⟩
    cases he with
    | underflow hlt => exact .inr (.inl ⟨rfl, hlt, tvalOfNat_toNat (by omega)⟩)
    | bounds addr haddr hlt hout => exact .inr (.inr (.inl ⟨rfl, i, addr, hf, haddr, hout, tvalOfNat_toNat hlt⟩))
    | overflow hfull => exact .inr (.inr (.inr ⟨rfl, hfull, tvalOfNat_toNat⟩))
  · exact ⟨rfl, s.raise_haltedOnError _, .inl ⟨rfl, b0, b1, b2, b3, b4, rest, hb, rfl, hclass⟩⟩

/-! ## Runs -/

/-- Settles O28: by induction on the steps; only the last state of a run can hold an error. -/
theorem pcCountsCompletedInstructions : Obligations.PcCountsCompletedInstructions := by
  intro s t k hs hrun ht
  induction k generalizing t with
  | zero =>
    obtain rfl : s = t := by simpa [run_zero] using hrun
    rfl
  | succ k ih =>
    obtain ⟨u, hu, hstep⟩ := run_succ_last hrun
    obtain ⟨huc, ⟨_, hpc⟩ | ⟨e, _, rfl⟩⟩ := step_progress hstep
    · rw [hpc, ih u hu huc, Nat.add_assoc]
    · exact absurd ht e.code_ne_zero

/-- A run that reaches an error is a run without one and a last step that raises it (41_sequencer.md R141, R143). -/
theorem run_error_last {s t : State} {k : Nat} (hs : s.cause = 0) (hrun : runFor k s = .next t) (ht : t.cause ≠ 0) :
    ∃ j u e, runFor j s = .next u ∧ u.cause = 0 ∧ t = u.raise e := by
  cases k with
  | zero =>
    obtain rfl : s = t := by simpa [run_zero] using hrun
    exact absurd hs ht
  | succ k =>
    obtain ⟨u, hu, hstep⟩ := run_succ_last hrun
    obtain ⟨huc, ⟨htc, _⟩ | ⟨e, _, rfl⟩⟩ := step_progress hstep
    · exact absurd htc ht
    · exact ⟨k, u, e, hu, huc, rfl⟩

/-- Settles O29: the state before the last step (`run_error_last`) has `PC` = `EPC`, the number of its steps. -/
theorem errorHaltKeepsEarlierEffects : Obligations.ErrorHaltKeepsEarlierEffects := by
  intro n d blob k t hb hrun ht
  have hboot : (State.boot n d blob).cause = 0 := State.boot_cause_eq_zero.mpr hb
  obtain ⟨j, u, e, hu, huc, rfl⟩ := run_error_last hboot hrun ht
  have hpc : u.pc = j := by
    rw [pcCountsCompletedInstructions _ u j hboot hu huc, State.boot_pc, Nat.zero_add]
  exact ⟨u, by rw [State.raise_epc, hpc]; exact hu, huc, rfl, rfl, rfl, rfl⟩

/-! ## Bounds in the reachable states -/

/-- Settles O45: a full stack has `SP` = `STACK_DEPTH`, but `SP <= PC < PROG_WORDS <= STACK_DEPTH`. -/
theorem deepStackNeverOverflows : Obligations.DeepStackNeverOverflows := by
  intro s t n hinv hn hdeep hstep h5
  obtain ⟨_, _, ⟨h2, _⟩ | ⟨h3, _⟩ | ⟨h4, _⟩ | ⟨_, hfull, _⟩⟩ := errorsArePrecise s t hstep (by simp [h5])
  · exact absurd (h5.symm.trans h2) (by decide)
  · exact absurd (h5.symm.trans h3) (by decide)
  · exact absurd (h5.symm.trans h4) (by decide)
  · obtain ⟨_, m, hm, hpc⟩ := s.running_iff.mp (running_of_step hstep)
    obtain rfl : n = m := Option.some.inj (hn.symm.trans hm)
    have hdepth : n ≤ s.sp := hdeep s.sp hfull
    have hsp := hinv.sp_le_pc
    omega

/-- Settles O46: every entry is below 2^27, the base of READ and the address of WRITE among them, so that a WRITE raises
`StackUnderflow` or completes. -/
theorem reachableAddressesAreSmall : Obligations.ReachableAddressesAreSmall := by
  refine ⟨fun s base k rest hinv hs hk => ?_, fun s t hinv hmem hc h h4 => ?_⟩
  · have hbase := hinv.stk_small base (by simp [hs])
    rw [stackBaseAddress]
    omega
  · rcases Nat.lt_or_ge s.sp 2 with hlt | hge
    · rw [writeErrorsInOrder.1 s hlt] at h
      cases h
      exact absurd h4 (show (3 : BitVec 4) ≠ 4 by decide)
    · obtain ⟨value, under, rest, hs⟩ := State.exists_topTwo hge
      have hunder : under.toNat < 2 ^ 27 := hinv.stk_small under (by simp [hs])
      rw [exec_write_of_inBounds hs (hunder.trans_le hmem)] at h
      cases h
      exact absurd (hc.symm.trans h4) (by decide)

end Sys2Proof.Machine
end

section
/-! PROOFS. The host (70_reset_and_hazards.md section 3): the read-out and the error report. -/

namespace Sys2Proof.Machine

/-! ## The end of the run -/

/-- A run has ended exactly when its state is halted (70_reset_and_hazards.md R242). -/
theorem State.ended_iff (s : State) : s.ended = true ↔ s.Halted := by
  unfold State.ended State.Halted
  cases s.runState <;> simp

theorem State.ended_eq_false {s : State} (h : ¬ s.Halted) : s.ended = false :=
  Bool.eq_false_iff.mpr (mt s.ended_iff.mp h)

theorem State.report_of_halted {s : State} (h : s.Halted) : s.report = some (s.cause, s.epc, s.tval) :=
  if_pos (s.ended_iff.mpr h)

theorem State.report_of_not_halted {s : State} (h : ¬ s.Halted) : s.report = none :=
  if_neg (mt s.ended_iff.mp h)

/-- The read-out of an ended run over a valid range is its cells (70_reset_and_hazards.md R243). -/
theorem State.readOut_of_ended {s : State} (h : s.ended = true) {start stop : Int} (hle : start ≤ stop) (h0 : 0 ≤ start) :
    s.readOut start stop = .ok (s.cells start.toNat stop.toNat) := by
  rw [State.readOut, if_neg (by omega), if_pos h]

/-- `InvalidRange` depends on the range only, never on the run (70_reset_and_hazards.md R243). -/
theorem State.readOut_invalidRange_iff (s : State) (start stop : Int) :
    s.readOut start stop = .error .invalidRange ↔ start > stop ∨ start < 0 := by
  unfold State.readOut
  by_cases hrange : start > stop ∨ start < 0
  · simp [hrange]
  · cases s.ended <;> simp [hrange]

/-- Before the end of the run no range gives cells (70_reset_and_hazards.md R240). -/
theorem State.readOut_ne_ok {s : State} (h : ¬ s.Halted) (start stop : Int) (cells : List (Nat × Word)) :
    s.readOut start stop ≠ .ok cells := by
  unfold State.readOut
  rw [State.ended_eq_false h]
  by_cases hrange : start > stop ∨ start < 0 <;> simp [hrange]

/-- Settles O49: `State.ended_iff`, and the report and the read-out on either side of it. -/
theorem hostReadsOnlyAfterTheEnd : Obligations.HostReadsOnlyAfterTheEnd := by
  refine fun s => ⟨s.ended_iff, ?_, ?_, fun start stop h => State.readOut_ne_ok h start stop⟩
  · by_cases h : s.Halted
    · exact iff_of_true (State.report_of_halted h) h
    · exact iff_of_false (by rw [State.report_of_not_halted h]; exact nofun) h
  · by_cases h : s.Halted
    · exact iff_of_false (by rw [State.report_of_halted h]; exact nofun) (not_not_intro h)
    · exact iff_of_true (State.report_of_not_halted h) h

/-! ## The cells of a range -/

theorem State.mem_cells_iff (s : State) (start stop a : Nat) (v : Word) :
    (a, v) ∈ s.cells start stop ↔ start ≤ a ∧ a ≤ stop ∧ a < s.memSize ∧ v = s.memRead a := by
  simp only [State.cells, List.mem_map, List.mem_range'_1, Prod.mk.injEq]
  constructor
  · rintro ⟨b, hb, rfl, rfl⟩
    exact ⟨by omega, by omega, by omega, rfl⟩
  · rintro ⟨hstart, hstop, hsize, rfl⟩
    exact ⟨a, by omega, rfl, rfl⟩

theorem State.cells_pairwise (s : State) (start stop : Nat) : (s.cells start stop).Pairwise fun p q => p.1 < q.1 := by
  rw [State.cells, List.pairwise_map]
  exact List.pairwise_lt_range'

/-- A range that starts beyond the memory has no cells. -/
theorem State.cells_eq_nil {s : State} {start : Nat} (h : s.memSize ≤ start) (stop : Nat) : s.cells start stop = [] := by
  have hzero : min (stop + 1) s.memSize - start = 0 := by omega
  rw [State.cells, hzero]
  rfl

/-- Settles O48: the three facts about `State.cells`, read with the bounds as natural numbers. -/
theorem readOutListsTheClippedRange : Obligations.ReadOutListsTheClippedRange := by
  refine ⟨State.readOut_invalidRange_iff, fun s start stop hended hle h0 => ?_⟩
  refine ⟨_, State.readOut_of_ended hended hle h0, fun a v => ?_, s.cells_pairwise _ _, fun hbeyond => ?_⟩
  · rw [s.mem_cells_iff]
    constructor
    · rintro ⟨hstart, hstop, hsize, rfl⟩
      exact ⟨by omega, by omega, rfl⟩
    · rintro ⟨hstart, hclip, rfl⟩
      exact ⟨by omega, by omega, by omega, rfl⟩
  · exact State.cells_eq_nil (by omega) _

end Sys2Proof.Machine
end
